-- ==== Sys2Proof/Word.lean ====
section
/-! DEFINITION. The machine's one word: a byte (00_scope.md rules R7, R8; 20_memory.md rule R53). -/

namespace Sys2Proof

/-- The WORD of rule R7: every memory slot, operand and general register holds one unsigned byte. -/
abbrev Byte := BitVec 8

end Sys2Proof
end

