-- ==== Sys2Proof/Config.lean ====
section
/-! DEFINITION. The parameters of the CORE (00_scope.md rule R7, 60_exceptions.md rule R214). Nothing in
the spec is undefined (00_scope.md rule R13), so there is no free value here. The default values stand in Decode.lean and Machine/Params.lean, which a repair may mend. -/

namespace Sys2Proof

/-- OPCODE_MAP of rule R7, "a parameter `OPCODE_MAP` whose default is rule R71's table" (head of 30_encoding.md;
decision D5, 93_implementation_defined.md I11): the opcode byte of each instruction, in the order of rule R71's table. -/
structure OpcodeMap where
  hlt : Byte
  ldi : Byte
  prn : Byte
  pra : Byte
  mul : Byte
  add : Byte
  and : Byte
  or : Byte
  xor : Byte
  shl : Byte
  shr : Byte
  mod : Byte
  cmp : Byte
  not : Byte
  inc : Byte
  dec : Byte
  push : Byte
  pop : Byte
  call : Byte
  ret : Byte
  jmp : Byte
  jeq : Byte
  jne : Byte
  st : Byte
  ld : Byte
  deriving DecidableEq, Repr

/-- The 25 opcode bytes, in the order of rule R71's table. -/
def OpcodeMap.bytes (m : OpcodeMap) : List Byte :=
  [m.hlt, m.ldi, m.prn, m.pra, m.mul, m.add, m.and, m.or, m.xor, m.shl, m.shr, m.mod, m.cmp] ++
    [m.not, m.inc, m.dec, m.push, m.pop, m.call, m.ret, m.jmp, m.jeq, m.jne, m.st, m.ld]

/-- 30_encoding.md rule R72: "the 25 values are distinct". -/
abbrev OpcodeMap.wf (m : OpcodeMap) : Prop := m.bytes.Nodup

/-- The parameters MEM_SIZE, SP_INIT, R7_INIT and OPCODE_MAP of rule R7 (decisions D2 to D5). Its other open
rows admit one value each. They are carried by State (log entry 4) and no step changes them. -/
structure Config where
  /-- MEM_SIZE: the number N of memory slots, addresses 0 to N - 1 (rules R7, R34). -/
  memSize : Nat
  /-- SP_INIT: the reset value of SP, the highest stack address (rules R7, R26). -/
  spInit : Nat
  /-- R7_INIT: the reset value of r7 (rules R7, R21). -/
  r7Init : Byte
  /-- OPCODE_MAP: the opcode byte of each instruction (rules R7, R71). -/
  opcodes : OpcodeMap
  deriving DecidableEq, Repr

/-- Rule R7's one constraint on the sizes: MEM_SIZE > SP_INIT. DESIGN CHOICE (log entry 29): no further bound, so an
SP_INIT of 256 or more is admitted, though 20_memory.md rule R51 lets only `load` and fetch reach addresses there. -/
abbrev Config.wf (c : Config) : Prop := c.spInit < c.memSize

end Sys2Proof
end

