-- ==== Sys2Proof/Syntax.lean ====
section
/-! DEFINITION. The instruction set of 30_encoding.md rule R71: 25 instructions and no other
(00_scope.md rule R2). An operand is the whole operand byte as fetched (rules R70, R76); whether a byte
that should name a register does so is checked by WellFormed and, when it runs, by the machine. -/

namespace Sys2Proof

/-- One constructor per row of the opcode table, its arguments the operand bytes in fetch order. -/
inductive Instr where
  /-- HLT (R106): end the run. -/
  | hlt
  /-- LDI reg, imm8 (R120). -/
  | ldi (a imm : Byte)
  /-- PRN reg (R130). -/
  | prn (a : Byte)
  /-- PRA reg (R131). -/
  | pra (a : Byte)
  /-- MUL reg, reg (R141). -/
  | mul (a b : Byte)
  /-- ADD reg, reg (R140). -/
  | add (a b : Byte)
  /-- AND reg, reg (R143). -/
  | and (a b : Byte)
  /-- OR reg, reg (R144). -/
  | or (a b : Byte)
  /-- XOR reg, reg (R145). -/
  | xor (a b : Byte)
  /-- SHL reg, reg (R147). -/
  | shl (a b : Byte)
  /-- SHR reg, reg (R148). -/
  | shr (a b : Byte)
  /-- MOD reg, reg (R142). -/
  | mod (a b : Byte)
  /-- CMP reg, reg (R152). -/
  | cmp (a b : Byte)
  /-- NOT reg, unused (R146): the second byte is fetched and not used. -/
  | not (a unused : Byte)
  /-- INC reg (R149). -/
  | inc (a : Byte)
  /-- DEC reg (R150). -/
  | dec (a : Byte)
  /-- PUSH reg (R170). -/
  | push (a : Byte)
  /-- POP reg (R171). -/
  | pop (a : Byte)
  /-- CALL reg (R180). -/
  | call (a : Byte)
  /-- RET (R181). -/
  | ret
  /-- JMP reg (R182). -/
  | jmp (a : Byte)
  /-- JEQ reg (R183). -/
  | jeq (a : Byte)
  /-- JNE reg (R184). -/
  | jne (a : Byte)
  /-- ST reg, reg (R122): the first register holds the address, the second the value. -/
  | st (a b : Byte)
  /-- LD reg, reg (R121): the first register is the destination, the second holds the address. -/
  | ld (a b : Byte)
  deriving DecidableEq, Repr

end Sys2Proof
end

