-- ==== Sys2Proof/WellFormed.lean ====
section
/-! DEFINITION. Which instructions name registers that exist (30_encoding.md rules R76, R78;
40_cycle.md rule R103). An ill-formed instruction still decodes and still runs: it raises OutOfBounds. -/

namespace Sys2Proof

/-- The operands of kind `reg` (rule R76), op_a before op_b. LDI's immediate and NOT's unused byte are
no register operands. -/
def Instr.regOperands : Instr → List Byte
  | .hlt | .ret => []
  | .ldi a _ | .not a _ => [a]
  | .prn a | .pra a | .inc a | .dec a | .push a | .pop a => [a]
  | .call a | .jmp a | .jeq a | .jne a => [a]
  | .mul a b | .add a b | .and a b | .or a b | .xor a b | .shl a b | .shr a b => [a, b]
  | .mod a b | .cmp a b | .st a b | .ld a b => [a, b]

/-- Every register operand is an index below 8, the whole byte counted (rules R23, R76). -/
def Instr.wellFormed (i : Instr) : Bool := i.regOperands.all fun r => decide (r.toNat < 8)

end Sys2Proof
end

