-- ==== Sys2Proof/Decode.lean ====
section
/-! DEFINITION. The decoder and the encoder (30_encoding.md). Both take the
parameter OPCODE_MAP of 00_scope.md rule R7 as an argument; its default is `defaultOpcodeMap`. -/

namespace Sys2Proof

/-- The operation kinds of the dispatch table (rule R72), one per row of rule R71. -/
inductive Op where
  | hlt | ldi | prn | pra | mul | add | and | or | xor | shl | shr | mod | cmp | not | inc | dec
  | push | pop | call | ret | jmp | jeq | jne | st | ld
  deriving DecidableEq, Repr

/-- OPCODE_MAP's byte for an operation (rules R71, R72). -/
def OpcodeMap.byte (m : OpcodeMap) : Op → Byte
  | .hlt => m.hlt
  | .ldi => m.ldi
  | .prn => m.prn
  | .pra => m.pra
  | .mul => m.mul
  | .add => m.add
  | .and => m.and
  | .or => m.or
  | .xor => m.xor
  | .shl => m.shl
  | .shr => m.shr
  | .mod => m.mod
  | .cmp => m.cmp
  | .not => m.not
  | .inc => m.inc
  | .dec => m.dec
  | .push => m.push
  | .pop => m.pop
  | .call => m.call
  | .ret => m.ret
  | .jmp => m.jmp
  | .jeq => m.jeq
  | .jne => m.jne
  | .st => m.st
  | .ld => m.ld

/-- OPCODE_MAP's default, rule R71's table. PRESUMED (log entry 3): the byte values are the spec's decision D5,
from general knowledge. -/
def defaultOpcodeMap : OpcodeMap where
  hlt := 0x01
  ldi := 0x82
  prn := 0x47
  pra := 0x48
  mul := 0xA2
  add := 0xA0
  and := 0xA8
  or := 0xAA
  xor := 0xAB
  shl := 0xAC
  shr := 0xAD
  mod := 0xA4
  cmp := 0xA7
  not := 0x69
  inc := 0x65
  dec := 0x66
  push := 0x45
  pop := 0x46
  call := 0x50
  ret := 0x11
  jmp := 0x54
  jeq := 0x55
  jne := 0x56
  st := 0x84
  ld := 0x83

/-- Rule R75: the operand count comes from this table, never from the opcode's bits 7:6 (decision D6,
conflict C1: NOT has two operand bytes). -/
def operandCount : Op → Nat
  | .hlt | .ret => 0
  | .prn | .pra | .inc | .dec | .push | .pop | .call | .jmp | .jeq | .jne => 1
  | .ldi | .mul | .add | .and | .or | .xor | .shl | .shr | .mod | .cmp | .not | .st | .ld => 2

/-- Rule R74: the instruction length is 1 + the operand count. -/
def opLength (o : Op) : Nat := 1 + operandCount o

/-- Every operation, in the order of rule R71's table. -/
def allOps : List Op :=
  [.hlt, .ldi, .prn, .pra, .mul, .add, .and, .or, .xor, .shl, .shr, .mod] ++
  [.cmp, .not, .inc, .dec, .push, .pop, .call, .ret, .jmp, .jeq, .jne, .st, .ld]

/-- Rule R72: decoding compares the whole opcode byte with the table; one row or none matches. -/
def lookupOp (m : OpcodeMap) (b : Byte) : Option Op := allOps.find? fun o => m.byte o == b

/-- The instruction of an operation with its operand bytes; an operand an operation lacks is ignored. -/
def buildInstr : Op → Byte → Byte → Instr
  | .hlt, _, _ => .hlt
  | .ldi, a, b => .ldi a b
  | .prn, a, _ => .prn a
  | .pra, a, _ => .pra a
  | .mul, a, b => .mul a b
  | .add, a, b => .add a b
  | .and, a, b => .and a b
  | .or, a, b => .or a b
  | .xor, a, b => .xor a b
  | .shl, a, b => .shl a b
  | .shr, a, b => .shr a b
  | .mod, a, b => .mod a b
  | .cmp, a, b => .cmp a b
  | .not, a, b => .not a b
  | .inc, a, _ => .inc a
  | .dec, a, _ => .dec a
  | .push, a, _ => .push a
  | .pop, a, _ => .pop a
  | .call, a, _ => .call a
  | .ret, _, _ => .ret
  | .jmp, a, _ => .jmp a
  | .jeq, a, _ => .jeq a
  | .jne, a, _ => .jne a
  | .st, a, b => .st a b
  | .ld, a, b => .ld a b

/-- Why a byte sequence holds no instruction at its start. -/
inductive DecodeError where
  /-- There is no byte to decode (rule R101's case). -/
  | noByte
  /-- The opcode is not in the table (rule R77). -/
  | unknownOpcode (opc : Byte)
  /-- The opcode is known and an operand byte is missing (rule R102's case). -/
  | missingOperand (opc : Byte)
  deriving DecidableEq, Repr

/-- The decoder's answer: an instruction and the bytes after it, or a rejection by name. -/
inductive Decoded where
  | instr (i : Instr) (rest : List Byte)
  | rejected (e : DecodeError)
  deriving DecidableEq, Repr

/-- The operand bytes of an operation with n of them, taken from the bytes after its opcode `opc`
(rules R70, R74). -/
def takeOperands (o : Op) (opc : Byte) : Nat → List Byte → Decoded
  | 0, rest => .instr (buildInstr o 0 0) rest
  | 1, a :: rest => .instr (buildInstr o a 0) rest
  | 2, a :: b :: rest => .instr (buildInstr o a b) rest
  | _, _ => .rejected (.missingOperand opc)

/-- The decoder: opcode first, then as many operand bytes as the table gives (rules R72, R74). It does
not check register indices: rule R103 makes that a check of the step, after the operands are read. -/
def decode (m : OpcodeMap) : List Byte → Decoded
  | [] => .rejected .noByte
  | opc :: rest =>
    match lookupOp m opc with
    | none => .rejected (.unknownOpcode opc)
    | some o => takeOperands o opc (operandCount o) rest

/-- The operation of an instruction. -/
def Instr.op : Instr → Op
  | .hlt => .hlt
  | .ldi _ _ => .ldi
  | .prn _ => .prn
  | .pra _ => .pra
  | .mul _ _ => .mul
  | .add _ _ => .add
  | .and _ _ => .and
  | .or _ _ => .or
  | .xor _ _ => .xor
  | .shl _ _ => .shl
  | .shr _ _ => .shr
  | .mod _ _ => .mod
  | .cmp _ _ => .cmp
  | .not _ _ => .not
  | .inc _ => .inc
  | .dec _ => .dec
  | .push _ => .push
  | .pop _ => .pop
  | .call _ => .call
  | .ret => .ret
  | .jmp _ => .jmp
  | .jeq _ => .jeq
  | .jne _ => .jne
  | .st _ _ => .st
  | .ld _ _ => .ld

/-- The operand bytes of an instruction, op_a before op_b (rule R70). -/
def Instr.operands : Instr → List Byte
  | .hlt | .ret => []
  | .prn a | .pra a | .inc a | .dec a | .push a | .pop a => [a]
  | .call a | .jmp a | .jeq a | .jne a => [a]
  | .ldi a b | .mul a b | .add a b | .and a b | .or a b | .xor a b | .shl a b | .shr a b => [a, b]
  | .mod a b | .cmp a b | .not a b | .st a b | .ld a b => [a, b]

/-- The encoder: the opcode byte, then the operand bytes at increasing addresses (rules R54, R70). -/
def encode (m : OpcodeMap) (i : Instr) : List Byte := m.byte i.op :: i.operands

/-- The three bytes of an instruction given as the number of its bits in the numbering of
spec/opcode_table.json: bits 7:0 are the first byte, bits 15:8 the second, bits 23:16 the third; bits
at nbits and above are 0. -/
def tableBytes (nbits w : Nat) : List Byte :=
  [BitVec.ofNat 8 (w % 2 ^ nbits), BitVec.ofNat 8 (w % 2 ^ nbits / 2 ^ 8),
    BitVec.ofNat 8 (w % 2 ^ nbits / 2 ^ 16)]

/-- What the decoder reads from an instruction's bits under an opcode map. -/
def decodeWord (m : OpcodeMap) (nbits w : Nat) : Option Instr :=
  match decode m (tableBytes nbits w) with
  | .instr i _ => some i
  | .rejected _ => none

/-- What the decoder reads from a table row's bits, under the map the table is written with. -/
def decodeTableWord (nbits w : Nat) : Option Instr := decodeWord defaultOpcodeMap nbits w

end Sys2Proof
end

