-- ==== Sys2Proof/Machine/Memory.lean ====
section
/-! DEFINITION. Memory contents as sorted data (10_state.md rule R34, 20_memory.md rules R53, R56). A slot
with no entry reads as 0, the value the spec gives unwritten memory, so an entry of value 0 is never kept.
Bounds (rule R52) are checked by the accessors of Machine/Ops.lean. -/

namespace Sys2Proof.Machine

/-- Addresses with the non-zero byte each holds. -/
abbrev Memory := List Host.Cell

/-- The canonical form: addresses strictly rising, no entry of value 0. -/
abbrev Memory.wf (m : Memory) : Prop :=
  m.Pairwise (fun x y => x.1 < y.1) ∧ ∀ c ∈ m, c.2 ≠ 0

/-- The byte at an address; 0 where nothing is listed (rule R56). -/
def Memory.read : Memory → Nat → Byte
  | [], _ => 0
  | c :: m, a => if c.1 = a then c.2 else Memory.read m a

/-- The memory with every entry at an address taken out. -/
def Memory.erase (m : Memory) (a : Nat) : Memory := m.filter fun c => c.1 != a

/-- The memory with an entry put before the first entry of a higher address. -/
def Memory.insert : Memory → Nat → Byte → Memory
  | [], a, v => [(a, v)]
  | c :: m, a, v => if a < c.1 then (a, v) :: c :: m else c :: Memory.insert m a v

/-- Rule R53's one-byte write. Writing 0 leaves no entry. -/
def Memory.write (m : Memory) (a : Nat) (v : Byte) : Memory :=
  if v = 0 then Memory.erase m a else Memory.insert (Memory.erase m a) a v

/-- A byte sequence written at increasing addresses from `a` (70_reset_and_hazards.md rule R232). -/
def Memory.writeBytes : Memory → Nat → List Byte → Memory
  | m, _, [] => m
  | m, a, b :: bs => Memory.writeBytes (Memory.write m a b) (a + 1) bs

end Sys2Proof.Machine
end

