-- ==== Sys2Proof/Machine/Params.lean ====
section
/-! DEFINITION. The default values of the construction parameters (00_scope.md rule R7). They stand here,
apart from Config's structure, so that a wrong default is mended in one place; OPCODE_MAP's stands in
Decode.lean. -/

namespace Sys2Proof.Machine

/-- MEM_SIZE = 256 (decision D2; log entry 4), SP_INIT = 0xF4 (D3; PRESUMED, log entry 1) and
R7_INIT = 0xF4 (D4; PRESUMED, log entry 2), OPCODE_MAP = rule R71's table (D5; PRESUMED, log entry 3). -/
def defaultConfig : Config :=
  { memSize := 256, spInit := 0xF4, r7Init := 0xF4, opcodes := defaultOpcodeMap }

end Sys2Proof.Machine
end

