-- ==== Sys2Proof/Machine/State.lean ====
section
/-! DEFINITION. The state of the machine as plain data (00_scope.md rule R12, 10_state.md) and its value
after reset (rule R35). -/

namespace Sys2Proof.Machine

/-- FL (10_state.md rule R28): the three flags of the last comparison. -/
structure Flags where
  /-- E: the values compared were equal. -/
  e : Bool
  /-- G: the first was greater. -/
  g : Bool
  /-- L: the first was less. -/
  l : Bool
  deriving DecidableEq, Repr

/-- An event of the output stream (10_state.md rule R30). -/
inductive OutEvent where
  /-- `(Dec, v)`, sent by PRN (42_output.md rule R130). -/
  | dec (v : Byte)
  /-- `(Chr, v)`, sent by PRA (42_output.md rule R131). -/
  | chr (v : Byte)
  deriving DecidableEq, Repr

/-- The run status (10_state.md rule R31). -/
inductive RunStatus where
  | ready | running | halted | faulted
  deriving DecidableEq, Repr

/-- The fault kinds the machine records (60_exceptions.md rule R200). -/
inductive FaultKind where
  | outOfBounds | divisionByZero | unknownOpcode | stackOverflow | stackUnderflow | programTooLarge
  deriving DecidableEq, Repr

/-- The fault record (10_state.md rule R32, 60_exceptions.md rule R201). -/
structure FaultRecord where
  kind : FaultKind
  /-- The address of the instruction; none for ProgramTooLarge, which records the kind only. -/
  pc : Option Nat
  /-- The opcode byte, when it was fetched. -/
  opcode : Option Byte
  deriving DecidableEq, Repr

/-- Everything the spec gives the machine (rule R12), with the construction parameters it runs under and
the host-protocol bit that says whether `load` was done. -/
structure State where
  /-- MEM_SIZE, SP_INIT, R7_INIT as given at construction, and OPCODE_MAP (rules R7, R214; log entry 4). -/
  cfg : Config
  /-- r0 to r7 (rule R20). -/
  regs : Vector Byte 8
  /-- PC: a natural number that never wraps (rule R24). -/
  pc : Nat
  /-- SP: the address of the next free stack slot (rule R26). -/
  sp : Nat
  /-- FL (rule R28). -/
  fl : Flags
  /-- The memory array (rule R34). -/
  mem : Memory
  /-- The output stream, oldest event first (rule R30). -/
  output : List OutEvent
  /-- The run status (rule R31). -/
  status : RunStatus
  /-- The fault record, empty unless the status is Faulted (rule R32). -/
  faultRecord : Option FaultRecord
  /-- Whether `load` has placed a program: it may do so once (rule R214, decision D32; log entry 7). -/
  loaded : Bool
  deriving DecidableEq, Repr

/-- Why `step` takes no step. A fault of the program is not one of these: the spec describes what it does
to the state (60_exceptions.md rule R203), so it is a next state with status Faulted. -/
inductive Fault where
  /-- Raised by `step` alone, of a machine whose run status is Ready: "a step is taken only while the run status
  is Running" (40_cycle.md rule R100), and it is the host that starts a run (00_scope.md rule R11). Safe. -/
  | runNotStarted
  /-- Raised by `step` alone, of a machine whose run status is Halted: "no step is taken" from it
  (10_state.md rule R31). Safe. -/
  | runHalted
  /-- Raised by `step` alone, of a machine whose run status is Faulted (10_state.md rule R31). Safe. -/
  | runFaulted
  deriving DecidableEq, Repr

/-- Why an instruction has no meaning. No instruction of this model is refused. -/
inductive Refusal where
  /-- Raised by an arm of `exec` whose instruction has no meaning yet; no arm raises it. Safe. -/
  | notModelled (mnemonic : String)
  deriving DecidableEq, Repr

/-- What an instruction and a step answer. -/
abbrev Result := Host.Outcome State Fault Refusal

/-- Reset, the construction of the processor state from the host's parameters (10_state.md rule R35,
70_reset_and_hazards.md rule R230). -/
def State.construct (c : Config) : State where
  cfg := c
  regs := #v[0, 0, 0, 0, 0, 0, 0, c.r7Init]
  pc := 0
  sp := c.spInit
  fl := { e := false, g := false, l := false }
  mem := []
  output := []
  status := .ready
  faultRecord := none
  loaded := false

/-- The machine right after reset with rule R7's default parameters. -/
def State.reset : State := State.construct defaultConfig

end Sys2Proof.Machine
end

