-- ==== Sys2Proof/Machine/Flags.lean ====
section
/-! DEFINITION. The one flag computation of the spec, CMP's (43_alu.md rule R152), and the host's byte view of
FL (10_state.md rule R29). -/

namespace Sys2Proof.Machine

/-- Rule R152: an unsigned comparison overwrites all three flags, setting exactly one. -/
def compareFlags (a b : Byte) : Flags :=
  if a = b then { e := true, g := false, l := false }
  else if b < a then { e := false, g := true, l := false }
  else { e := false, g := false, l := true }

/-- FL as the byte `0b00000LGE` of rule R29. PRESUMED (decision D8; log entry 18): a host view that no
instruction can observe. -/
def Flags.toByte (f : Flags) : Byte :=
  BitVec.ofNat 8 (f.e.toNat + 2 * f.g.toNat + 4 * f.l.toNat)

end Sys2Proof.Machine
end

