-- ==== Sys2Proof/Machine/Ops.lean ====
section
/-! DEFINITION. The operations the instructions share: registers, PC, SP, bounds-checked memory, the stack,
output, and taking a fault. An instruction's effect is computed as `Except FaultKind State` from the state
before it, and `complete` turns an error into fault entry on that same state, so a faulting instruction
writes nothing (60_exceptions.md rule R203). -/

namespace Sys2Proof.Machine

/-- `x[i]` (00_scope.md rule R9). -/
def State.reg (s : State) (r : Fin 8) : Byte := s.regs[r]

/-- `x[i] <- v` (00_scope.md rule R9). -/
def State.setReg (s : State) (r : Fin 8) (v : Byte) : State := { s with regs := s.regs.set r v }

/-- `pc <- target`: a transfer lands on its target exactly (40_cycle.md rule R104). -/
def State.setPc (s : State) (target : Nat) : State := { s with pc := target }

/-- `pc <- pc + 1 + n`: the next sequential PC (40_cycle.md rule R104). -/
def State.advance (s : State) (o : Op) : State := { s with pc := s.pc + opLength o }

/-- A new value of SP. -/
def State.setSp (s : State) (v : Nat) : State := { s with sp := v }

/-- A new value of FL. -/
def State.setFl (s : State) (f : Flags) : State := { s with fl := f }

/-- New memory contents. -/
def State.setMem (s : State) (m : Memory) : State := { s with mem := m }

/-- `Output(kind, v)`: append an event to the output stream (00_scope.md rule R9, 10_state.md rule R30). -/
def State.emit (s : State) (e : OutEvent) : State := { s with output := s.output ++ [e] }

/-- A new run status. -/
def State.setStatus (s : State) (r : RunStatus) : State := { s with status := r }

/-- `MemRead(addr, 1)`, checked against MEM_SIZE before it is made (20_memory.md rules R52, R53). -/
def State.memRead (s : State) (a : Nat) : Except FaultKind Byte :=
  if a < s.cfg.memSize then .ok (Memory.read s.mem a) else .error .outOfBounds

/-- `MemWrite(addr, 1, v)`, checked against MEM_SIZE before it is made (20_memory.md rules R52, R53). -/
def State.memWrite (s : State) (a : Nat) (v : Byte) : Except FaultKind State :=
  if a < s.cfg.memSize then .ok (s.setMem (Memory.write s.mem a v)) else .error .outOfBounds

/-- A push of the SP state machine (10_state.md rule R27): the overflow check, the write at SP, then the
decrement. SP may be above 255 if SP_INIT is (20_memory.md rule R51; DESIGN CHOICE, log entry 29). -/
def State.pushByte (s : State) (v : Byte) : Except FaultKind State :=
  if s.sp = 0 then .error .stackOverflow
  else do
    let t ← s.memWrite s.sp v
    .ok (t.setSp (s.sp - 1))

/-- A pop of the SP state machine (10_state.md rule R27): the underflow check, the increment, then the read.
The slot keeps its value. Its address may be above 255 if SP_INIT is (20_memory.md rule R51; DESIGN CHOICE, log
entry 29). -/
def State.popByte (s : State) : Except FaultKind (Byte × State) :=
  if s.sp = s.cfg.spInit then .error .stackUnderflow
  else do
    let v ← s.memRead (s.sp + 1)
    .ok (v, s.setSp (s.sp + 1))

/-- TAKING A FAULT (60_exceptions.md rules R201, R203): the status becomes Faulted and the record holds the
kind, the PC of the instruction and its opcode byte when it was fetched; nothing else changes and control
goes nowhere. There is no return from it (rule R204). -/
def State.raiseFault (s : State) (k : FaultKind) (opc : Option Byte) : State :=
  { s with status := .faulted, faultRecord := some { kind := k, pc := some s.pc, opcode := opc } }

/-- The end of an instruction that began in `s`: its effect, or fault entry on `s` with its opcode byte. -/
def complete (o : Op) (s : State) : Except FaultKind State → Result
  | .ok t => .next t
  | .error k => .next (s.raiseFault k (some (s.cfg.opcodes.byte o)))

end Sys2Proof.Machine
end

