-- ==== Sys2Proof/Machine/Operands.lean ====
section
/-! DEFINITION. The operand kinds of 30_encoding.md rule R76: `reg` and `imm8`. The kind `unused`,
NOT's second byte, is fetched with the instruction and neither checked nor used (decision D18, log entry
11), so it needs no operation. -/

namespace Sys2Proof.Machine

/-- A `reg` operand: the whole byte is the register index, and an index of 8 or more raises OutOfBounds,
read or written (10_state.md rule R23, 40_cycle.md rule R103; decision D19, log entry 11). -/
def regOperand (b : Byte) : Except FaultKind (Fin 8) :=
  if h : b.toNat < 8 then .ok ⟨b.toNat, h⟩ else .error .outOfBounds

/-- Two `reg` operands, op_a checked before op_b (60_exceptions.md rule R202). -/
def regOperands2 (a b : Byte) : Except FaultKind (Fin 8 × Fin 8) := do
  let ra ← regOperand a
  let rb ← regOperand b
  .ok (ra, rb)

/-- An `imm8` operand: the byte itself, `zext_8(op_b)`, any value (rule R76). -/
def immOperand (b : Byte) : Byte := b

/-- A register's value as an address or a transfer target, in [0, 255] (20_memory.md rule R51). -/
def addressOf (v : Byte) : Nat := v.toNat

end Sys2Proof.Machine
end

