-- ==== Sys2Proof/Machine/Alu.lean ====
section
/-! DEFINITION. The ALU's twelve instructions (43_alu.md). A result of type Byte is the exact result modulo
256 (rule R153), no instruction but CMP writes FL, and both operands are read before the result is written
(rule R155). -/

namespace Sys2Proof.Machine

/-- Rule R140. -/
def aluAdd (a b : Byte) : Byte := a + b

/-- Rule R141: the low 8 bits of the product. -/
def aluMul (a b : Byte) : Byte := a * b

/-- Rule R142, for b not 0: the unsigned remainder. -/
def aluMod (a b : Byte) : Byte := a % b

/-- Rule R143. -/
def aluAnd (a b : Byte) : Byte := a &&& b

/-- Rule R144. -/
def aluOr (a b : Byte) : Byte := a ||| b

/-- Rule R145. -/
def aluXor (a b : Byte) : Byte := a ^^^ b

/-- Rule R146. -/
def aluNot (a : Byte) : Byte := ~~~a

/-- Rule R147, SHIFT_POLICY `full`: the amount is the whole byte, so 8 and above give 0.
DESIGN CHOICE of the spec (decision D9; log entry 9). -/
def aluShl (a b : Byte) : Byte := a <<< b.toNat

/-- Rule R148, SHIFT_POLICY `full`, logical. DESIGN CHOICE of the spec (decision D9; log entry 9). -/
def aluShr (a b : Byte) : Byte := a >>> b.toNat

/-- Rule R149. -/
def aluInc (a : Byte) : Byte := a + 1

/-- Rule R150. -/
def aluDec (a : Byte) : Byte := a - 1

/-- The shape of a two-register operation that stores into op_a. -/
def alu2 (o : Op) (f : Byte → Byte → Byte) (a b : Byte) (s : State) : Except FaultKind State := do
  let (ra, rb) ← regOperands2 a b
  .ok ((s.setReg ra (f (s.reg ra) (s.reg rb))).advance o)

/-- The shape of a one-register operation. -/
def alu1 (o : Op) (f : Byte → Byte) (a : Byte) (s : State) : Except FaultKind State := do
  let ra ← regOperand a
  .ok ((s.setReg ra (f (s.reg ra))).advance o)

/-- ADD (rule R140). -/
def execAdd (a b : Byte) (s : State) : Result := complete .add s (alu2 .add aluAdd a b s)

/-- MUL (rule R141). -/
def execMul (a b : Byte) (s : State) : Result := complete .mul s (alu2 .mul aluMul a b s)

/-- MOD (rule R142): a zero divisor raises DivisionByZero, after the register check (rule R202). -/
def execMod (a b : Byte) (s : State) : Result := complete .mod s do
  let (_, rb) ← regOperands2 a b
  if s.reg rb = 0 then .error .divisionByZero else alu2 .mod aluMod a b s

/-- AND (rule R143). -/
def execAnd (a b : Byte) (s : State) : Result := complete .and s (alu2 .and aluAnd a b s)

/-- OR (rule R144). -/
def execOr (a b : Byte) (s : State) : Result := complete .or s (alu2 .or aluOr a b s)

/-- XOR (rule R145). -/
def execXor (a b : Byte) (s : State) : Result := complete .xor s (alu2 .xor aluXor a b s)

/-- NOT (rule R146): three bytes long, its second operand byte unused and unchecked (conflict C1, decision
D18; log entry 11). -/
def execNot (a _unused : Byte) (s : State) : Result := complete .not s (alu1 .not aluNot a s)

/-- SHL (rule R147). -/
def execShl (a b : Byte) (s : State) : Result := complete .shl s (alu2 .shl aluShl a b s)

/-- SHR (rule R148). -/
def execShr (a b : Byte) (s : State) : Result := complete .shr s (alu2 .shr aluShr a b s)

/-- INC (rule R149). -/
def execInc (a : Byte) (s : State) : Result := complete .inc s (alu1 .inc aluInc a s)

/-- DEC (rule R150). -/
def execDec (a : Byte) (s : State) : Result := complete .dec s (alu1 .dec aluDec a s)

/-- CMP (rule R152): writes FL and no register. -/
def execCmp (a b : Byte) (s : State) : Result := complete .cmp s do
  let (ra, rb) ← regOperands2 a b
  .ok ((s.setFl (compareFlags (s.reg ra) (s.reg rb))).advance .cmp)

end Sys2Proof.Machine
end

