-- ==== Sys2Proof/Machine/Control.lean ====
section
/-! DEFINITION. CALL, RET, JMP, JEQ, JNE (45_control.md) and HLT (40_cycle.md rule R106). A taken transfer
sets the PC to its target; `target - 1` is never held (40_cycle.md rule R104). -/

namespace Sys2Proof.Machine

/-- CALL's return address, the byte after its operand; an address above 255 does not fit a memory slot and
raises OutOfBounds (rule R180, decision D31; log entry 17). -/
def returnByte (s : State) : Except FaultKind Byte :=
  let ret := s.pc + opLength .call
  if 255 < ret then .error .outOfBounds else .ok (BitVec.ofNat 8 ret)

/-- CALL (rule R180): StackOverflow is checked before the return address, and the target is read before the
push. -/
def execCall (a : Byte) (s : State) : Result := complete .call s do
  let ra ← regOperand a
  if s.sp = 0 then .error .stackOverflow
  else do
    let ret ← returnByte s
    let t ← s.pushByte ret
    .ok (t.setPc (addressOf (s.reg ra)))

/-- RET (rule R181). -/
def execRet (s : State) : Result := complete .ret s do
  let (v, t) ← s.popByte
  .ok (t.setPc (addressOf v))

/-- JMP (rule R182). -/
def execJmp (a : Byte) (s : State) : Result := complete .jmp s do
  let ra ← regOperand a
  .ok (s.setPc (addressOf (s.reg ra)))

/-- The conditional jump's end: to the register's value when taken, else on to the next instruction
(conflict C5). -/
def branch (o : Op) (taken : Bool) (a : Byte) (s : State) : Except FaultKind State := do
  let ra ← regOperand a
  if taken then .ok (s.setPc (addressOf (s.reg ra))) else .ok (s.advance o)

/-- JEQ (rule R183). -/
def execJeq (a : Byte) (s : State) : Result := complete .jeq s (branch .jeq s.fl.e a s)

/-- JNE (rule R184): taken when E is clear, before any CMP too (decision D30; log entry 18). -/
def execJne (a : Byte) (s : State) : Result := complete .jne s (branch .jne (!s.fl.e) a s)

/-- HLT (40_cycle.md rule R106): the PC stays at the HLT (decision D17; log entry 16). -/
def execHlt (s : State) : Result := complete .hlt s (.ok (s.setStatus .halted))

end Sys2Proof.Machine
end

