-- ==== Sys2Proof/Machine/Data.lean ====
section
/-! DEFINITION. LDI, LD and ST (41_data.md). -/

namespace Sys2Proof.Machine

/-- LDI (rule R120). -/
def execLdi (a imm : Byte) (s : State) : Result := complete .ldi s do
  let ra ← regOperand a
  .ok ((s.setReg ra (immOperand imm)).advance .ldi)

/-- LD (rule R121): the address is read before the destination is written. -/
def execLd (a b : Byte) (s : State) : Result := complete .ld s do
  let (ra, rb) ← regOperands2 a b
  let v ← s.memRead (addressOf (s.reg rb))
  .ok ((s.setReg ra v).advance .ld)

/-- ST (rule R122): the first operand is the address register. -/
def execSt (a b : Byte) (s : State) : Result := complete .st s do
  let (ra, rb) ← regOperands2 a b
  let t ← s.memWrite (addressOf (s.reg ra)) (s.reg rb)
  .ok (t.advance .st)

end Sys2Proof.Machine
end

