-- ==== Sys2Proof/Machine/Output.lean ====
section
/-! DEFINITION. PRN and PRA (42_output.md). -/

namespace Sys2Proof.Machine

/-- PRN (rule R130): one (Dec, v) event. -/
def execPrn (a : Byte) (s : State) : Result := complete .prn s do
  let ra ← regOperand a
  .ok ((s.emit (.dec (s.reg ra))).advance .prn)

/-- PRA (rule R131): one (Chr, v) event, every value emitted as it is. -/
def execPra (a : Byte) (s : State) : Result := complete .pra s do
  let ra ← regOperand a
  .ok ((s.emit (.chr (s.reg ra))).advance .pra)

end Sys2Proof.Machine
end

