-- ==== Sys2Proof/Machine/Stack.lean ====
section
/-! DEFINITION. PUSH and POP (44_stack.md). -/

namespace Sys2Proof.Machine

/-- PUSH (rule R170). -/
def execPush (a : Byte) (s : State) : Result := complete .push s do
  let ra ← regOperand a
  let t ← s.pushByte (s.reg ra)
  .ok (t.advance .push)

/-- POP (rule R171). -/
def execPop (a : Byte) (s : State) : Result := complete .pop s do
  let ra ← regOperand a
  let (v, t) ← s.popByte
  .ok ((t.setReg ra v).advance .pop)

end Sys2Proof.Machine
end

