-- ==== Sys2Proof/Machine/Fetch.lean ====
section
/-! DEFINITION. The fetch and decode part of a step (40_cycle.md rules R100 to R102), and the placing of bytes
where the step fetches them. -/

namespace Sys2Proof.Machine

/-- Up to n bytes of memory from an address on, ending where memory ends (rule R52). -/
def State.bytesFrom (s : State) : Nat → Nat → List Byte
  | 0, _ => []
  | n + 1, a => if a < s.cfg.memSize then Memory.read s.mem a :: State.bytesFrom s n (a + 1) else []

/-- The bytes an instruction at the PC may occupy: three at most (rule R70), fewer at the end of memory. -/
def State.fetchWindow (s : State) : List Byte := s.bytesFrom 3 s.pc

/-- The instruction at the PC, or the fault its fetch raises with the opcode when one was fetched: an
opcode outside memory (R101), an unknown opcode (R77), an operand outside memory (R102), in that order. -/
def State.fetch (s : State) : Except (FaultKind × Option Byte) Instr :=
  match decode s.cfg.opcodes s.fetchWindow with
  | .instr i _ => .ok i
  | .rejected .noByte => .error (.outOfBounds, none)
  | .rejected (.unknownOpcode opc) => .error (.unknownOpcode, some opc)
  | .rejected (.missingOperand opc) => .error (.outOfBounds, some opc)

/-- Bytes put into memory at increasing addresses, those past the end of memory left out. -/
def State.placeBytes (s : State) (a : Nat) (bs : List Byte) : State :=
  { s with mem := Memory.writeBytes s.mem a (bs.take (s.cfg.memSize - a)) }

end Sys2Proof.Machine
end

