-- ==== Sys2Proof/Machine/Interaction.lean ====
section
/-! DEFINITION. The host's interactions before and after a run (60_exceptions.md rules R213, R214;
70_reset_and_hazards.md rule R232) and its view of how a run ended. Reset is `State.construct`; reading the
output and the final state is reading State's fields. -/

namespace Sys2Proof.Machine

/-- The host's `load(bytes)` (70_reset_and_hazards.md rule R232). `none` is no move: `load` is allowed once,
while the status is Ready (60_exceptions.md rule R214, decision D32; log entries 7, 8). An image that is
too large writes nothing and ends the run before it starts, recording the kind only (rule R201). -/
def State.load (s : State) (bytes : List Byte) : Option State :=
  if s.status = .ready ∧ s.loaded = false then
    if s.cfg.memSize < bytes.length then
      some { s with
        status := .faulted
        faultRecord := some { kind := .programTooLarge, pc := none, opcode := none } }
    else some { s with mem := Memory.writeBytes s.mem 0 bytes, loaded := true }
  else none

/-- The first move of the host's `run()` (40_cycle.md rule R105): Ready becomes Running, and a run that has
ended is left as it is. `none` is no move: the machine is running already (rule R214; log entry 8). -/
def State.startRun (s : State) : Option State :=
  match s.status with
  | .ready => some (s.setStatus .running)
  | .running => none
  | .halted | .faulted => some s

/-- A step asked of a machine whose run the host has not started: none is taken (40_cycle.md rule R100; log
entry 6). -/
def beforeRun (_s : State) : Result := .fault .runNotStarted

/-- What `run()` returns (10_state.md rule R31). -/
inductive RunResult where
  | halted
  | faulted (kind : FaultKind)
  deriving DecidableEq, Repr

/-- The terminal status of a run that has ended: Halted, or Faulted with its kind (10_state.md rule R31). -/
def State.runResult (s : State) : Option RunResult :=
  match s.status, s.faultRecord with
  | .halted, _ => some .halted
  | .faulted, some r => some (.faulted r.kind)
  | _, _ => none

/-- The numeric fault codes of 60_exceptions.md rule R200. DESIGN CHOICE of the spec (decision D15; log entry
14): a host view. -/
def FaultKind.code : FaultKind → Nat
  | .outOfBounds => 1
  | .divisionByZero => 2
  | .unknownOpcode => 3
  | .stackOverflow => 4
  | .stackUnderflow => 5
  | .programTooLarge => 6

end Sys2Proof.Machine
end

