-- ==== Sys2Proof/Machine/Step.lean ====
section
/-! DEFINITION. One step of the machine (40_cycle.md rule R100). -/

namespace Sys2Proof.Machine

/-- A step of the machine. It is taken only while the run status is Running: one instruction is fetched, decoded
and executed, or its fetch raises a fault (rule R100). Ready: the host has not called `run()` (rules R11,
R105; `State.startRun` is that call). Halted and Faulted are terminal (10_state.md rule R31). -/
def step (s : State) : Host.Outcome State Fault Refusal :=
  match s.status with
  | .running =>
    match s.fetch with
    | .ok i => exec i s
    | .error (k, opc) => .next (s.raiseFault k opc)
  | .ready => beforeRun s
  | .halted => .fault .runHalted
  | .faulted => .fault .runFaulted

/-- `s` with the instruction of a table row's bits at the PC and the run started (log entry 6: this stands for
`load` and `run()`). -/
def State.withFetchWord (s : State) (nbits w : Nat) : State :=
  (s.placeBytes s.pc (tableBytes nbits w)).setStatus .running

end Sys2Proof.Machine
end

