-- ==== Sys2Proof/Machine/Run.lean ====
section
/-! DEFINITION. The host's `run()` under an instruction budget (40_cycle.md rule R105, 60_exceptions.md
rule R215). -/

namespace Sys2Proof.Machine

/-- Steps taken while the status is Running, at most n of them: the host may stop the loop between two steps,
and the state is then that after the last completed one (rule R215). -/
def State.runSteps : Nat → State → State
  | 0, s => s
  | n + 1, s =>
    match s.status, step s with
    | .running, .next t => State.runSteps n t
    | _, _ => s

/-- `run()` with a budget of n steps: the state it leaves and, if the run ended, its terminal status (rules
R31, R105). `none` is no move. -/
def State.run (n : Nat) (s : State) : Option (State × Option RunResult) :=
  s.startRun.map fun t => (t.runSteps n, (t.runSteps n).runResult)

end Sys2Proof.Machine
end

