-- ==== Sys2Proof/Safety.lean ====
section
/-! DEFINITION. The terms claims use: the invariant of the machine, and what it means that an instruction writes
one register or raises a fault. -/

namespace Sys2Proof.Machine

/-- What holds of every state the machine reaches from a construction whose parameters meet rule R7's
constraint. -/
structure State.Inv (s : State) : Prop where
  /-- 00_scope.md rule R7: MEM_SIZE > SP_INIT. -/
  cfg_wf : s.cfg.wf
  /-- 10_state.md rule R24: the PC is at most MEM_SIZE, or a byte's value. -/
  pc_le : s.pc ≤ max s.cfg.memSize 255
  /-- 10_state.md rule R26: SP is in [0, SP_INIT]. -/
  sp_le : s.sp ≤ s.cfg.spInit
  /-- Memory is in its canonical form. -/
  mem_wf : Memory.wf s.mem
  /-- 10_state.md rule R34: only slots below MEM_SIZE exist. -/
  mem_lt : ∀ c ∈ s.mem, c.1 < s.cfg.memSize
  /-- 10_state.md rule R28: no two flags are set. -/
  fl_exclusive : s.fl.e.toNat + s.fl.g.toNat + s.fl.l.toNat ≤ 1
  /-- 10_state.md rule R32: the record is empty unless the status is Faulted, and then it is not. -/
  record_iff : s.faultRecord.isSome = true ↔ s.status = .faulted
  /-- 60_exceptions.md rule R201: ProgramTooLarge records the kind only; every other fault records the PC,
  which stays at the faulting instruction (rule R203), and the opcode unless its fetch was outside memory. -/
  record_shape : ∀ r ∈ s.faultRecord,
    (r.kind = .programTooLarge ∧ r.pc = none ∧ r.opcode = none) ∨
    (r.kind = .outOfBounds ∧ r.pc = some s.pc ∧ r.opcode = none ∧ s.cfg.memSize ≤ s.pc) ∨
    (r.kind ≠ .programTooLarge ∧ r.pc = some s.pc ∧ r.opcode.isSome = true ∧ s.pc < s.cfg.memSize)
  /-- 10_state.md rule R31: before a run nothing has been printed. -/
  ready_output : s.status = .ready → s.output = []

/-- A state met from a well-formed construction by the host's moves and the machine's steps. -/
inductive Reachable : State → Prop where
  | construct (c : Config) (h : c.wf) : Reachable (State.construct c)
  | load {s t : State} (bytes : List Byte) : Reachable s → s.load bytes = some t → Reachable t
  | start {s t : State} : Reachable s → s.startRun = some t → Reachable t
  | step {s t : State} : Reachable s → Machine.step s = .next t → Reachable t

/-- Instruction `i` completes from `s`, leaves the number `v` in register `r`, moves the PC on by `len`, and
changes nothing else at all. -/
def WritesRegister (i : Instr) (s : State) (r v len : Nat) : Prop :=
  ∃ t : State, exec i s = .next t ∧ t = { s with regs := t.regs, pc := s.pc + len } ∧
    ∀ (q : Nat) (h : q < 8), t.regs[q].toNat = if q = r then v else s.regs[q].toNat

/-- Instruction `i` raises the fault `k` from `s`: the next state is Faulted, its record holds the kind, the
instruction's PC and its opcode byte, and nothing else has changed (60_exceptions.md rules R201, R203, by the spec's decisions
D13 and D16; log entries 5, 12, 14). -/
def RaisesFault (i : Instr) (s : State) (k : FaultKind) : Prop :=
  exec i s = .next { s with
    status := .faulted
    faultRecord := some { kind := k, pc := some s.pc, opcode := some (s.cfg.opcodes.byte i.op) } }

end Sys2Proof.Machine
end

