-- ==== Sys2Proof/Certificates/Slice0/Obligations.lean ====
section
/-! DEFINITION. The statements for the provers. Registers, memory bytes, PC, SP and FL are named through State's
own fields and Memory.read. A docstring that names a log entry says that the statement rests on a choice
recorded there. Every clause with RaisesFault rests on log entries 5, 12 and 14 (what raising a fault leaves), and an
opcode byte is OPCODE_MAP's, the parameter s.cfg.opcodes, so no clause but those of EncodingTable, ExampleWordsDecode
and UnlistedOpcodesAreRejected claims an opcode value (log entry 3). -/

open Sys2Proof Sys2Proof.Machine

/-! ### Encoding (30_encoding.md) -/

/-- Rules R70 and R74: under every OPCODE_MAP of distinct values, the bytes of an instruction, whatever follows them,
decode to that instruction, with every operand byte at every value, and the decoder consumes exactly those bytes. -/
def Obligations.DecodeInvertsEncode : Prop :=
  ∀ m : OpcodeMap, m.wf → ∀ (i : Instr) (rest : List Byte), decode m (encode m i ++ rest) = .instr i rest

/-- Rules R70, R72 and R74, the other direction: what decodes to an instruction is that instruction's encoding
followed by the rest, under every OPCODE_MAP, so each byte sequence has one reading and no byte of it is dropped. -/
def Obligations.DecodedBytesAreTheEncoding : Prop :=
  ∀ (m : OpcodeMap) (bs : List Byte) (i : Instr) (rest : List Byte), decode m bs = .instr i rest →
    bs = encode m i ++ rest

/-- Rule R72: the table's values are distinct, and with distinct values an opcode byte selects one operation or none,
all its bits compared. -/
def Obligations.OpcodeLookupIsExact : Prop :=
  (∀ o p : Op, defaultOpcodeMap.byte o = defaultOpcodeMap.byte p → o = p) ∧
  ∀ m : OpcodeMap, m.wf → (∀ o p : Op, m.byte o = m.byte p → o = p) ∧
    ∀ (b : Byte) (o : Op), lookupOp m b = some o ↔ m.byte o = b

/-- Rules R71 and R75: the opcode byte and the operand bytes of all 25 instructions. The opcode values are the
spec's decision D5 (log entry 3), NOT's three bytes its conflict C1. -/
def Obligations.EncodingTable : Prop :=
  ∀ a b : Byte,
    let encode := Sys2Proof.encode defaultOpcodeMap
    (encode .hlt = [0x01] ∧ encode .ret = [0x11]) ∧
    (encode (.prn a) = [0x47, a] ∧ encode (.pra a) = [0x48, a] ∧ encode (.inc a) = [0x65, a] ∧
      encode (.dec a) = [0x66, a] ∧ encode (.push a) = [0x45, a] ∧ encode (.pop a) = [0x46, a] ∧
      encode (.call a) = [0x50, a] ∧ encode (.jmp a) = [0x54, a] ∧ encode (.jeq a) = [0x55, a] ∧
      encode (.jne a) = [0x56, a]) ∧
    (encode (.ldi a b) = [0x82, a, b] ∧ encode (.ld a b) = [0x83, a, b] ∧ encode (.st a b) = [0x84, a, b] ∧
      encode (.add a b) = [0xA0, a, b] ∧ encode (.mul a b) = [0xA2, a, b] ∧ encode (.mod a b) = [0xA4, a, b] ∧
      encode (.cmp a b) = [0xA7, a, b] ∧ encode (.and a b) = [0xA8, a, b] ∧ encode (.or a b) = [0xAA, a, b] ∧
      encode (.xor a b) = [0xAB, a, b] ∧ encode (.shl a b) = [0xAC, a, b] ∧ encode (.shr a b) = [0xAD, a, b] ∧
      encode (.not a b) = [0x69, a, b])

/-- The example encodings of rules R106, R120, R122, R130, R140, R149, R170, R180 and R181 and vector X8's NOT, one word
or more of each family, decode to the instructions they stand for (opcode values: log entry 3; NOT's three bytes and
its unchecked second operand byte: log entry 11). -/
def Obligations.ExampleWordsDecode : Prop :=
  let decode := Sys2Proof.decode defaultOpcodeMap
  decode [0x01] = .instr .hlt [] ∧
  decode [0x82, 0x00, 0x05] = .instr (.ldi 0 5) [] ∧
  decode [0x84, 0x03, 0x02] = .instr (.st 3 2) [] ∧
  decode [0x47, 0x00] = .instr (.prn 0) [] ∧
  decode [0xA0, 0x00, 0x01] = .instr (.add 0 1) [] ∧
  decode [0x69, 0x00, 0xC8] = .instr (.not 0 0xC8) [] ∧
  decode [0x65, 0x02] = .instr (.inc 2) [] ∧
  decode [0x45, 0x00] = .instr (.push 0) [] ∧
  decode [0x50, 0x01] = .instr (.call 1) [] ∧
  decode [0x11] = .instr .ret []

/-- Rule R77: exactly the opcode bytes outside rule R71's 25 values are rejected as unknown, whatever follows them
(opcode values: log entry 3; rejection and no skipping: decision D7, log entry 10). -/
def Obligations.UnlistedOpcodesAreRejected : Prop :=
  ∀ (opc : Byte) (rest : List Byte),
    decode defaultOpcodeMap (opc :: rest) = .rejected (.unknownOpcode opc) ↔
      opc.toNat ∉ [0x01, 0x82, 0x47, 0x48, 0xA2, 0xA0, 0xA8, 0xAA, 0xAB, 0xAC, 0xAD, 0xA4, 0xA7, 0x69, 0x65, 0x66,
        0x45, 0x46, 0x50, 0x11, 0x54, 0x55, 0x56, 0x84, 0x83]

/-! ### The step (40_cycle.md) -/

/-- Rule R100: while Running, a step whose fetched bytes decode to an instruction is that instruction's execution, with
nothing added around it. -/
def Obligations.StepRunsTheDecodedInstruction : Prop :=
  ∀ (s : State) (i : Instr) (rest : List Byte),
    s.status = .running → decode s.cfg.opcodes s.fetchWindow = .instr i rest → step s = exec i s

/-- Rules R100 and R54: while Running, if memory holds an instruction's encoding at increasing addresses from the PC,
all of it inside memory, the step executes that instruction, under every OPCODE_MAP of distinct values. -/
def Obligations.StepRunsTheInstructionInMemory : Prop :=
  ∀ (s : State) (i : Instr), s.status = .running → s.cfg.opcodes.wf →
    s.pc + (encode s.cfg.opcodes i).length ≤ s.cfg.memSize →
    (∀ (k : Nat) (h : k < (encode s.cfg.opcodes i).length),
      Memory.read s.mem (s.pc + k) = (encode s.cfg.opcodes i)[k]) → step s = exec i s

/-- Rules R101, R77 and R102, in the order of rule R202: an opcode outside memory, else an opcode not in the table, else
an operand outside memory, raises its fault, changing nothing but the status and the fault record (decisions D7,
D13, D14, D16, D28; log entries 10, 12, 13, 14, 21). -/
def Obligations.FetchFaultsInOrder : Prop :=
  ∀ s : State, s.status = .running →
    (s.cfg.memSize ≤ s.pc → step s = .next { s with
      status := .faulted, faultRecord := some { kind := .outOfBounds, pc := some s.pc, opcode := none } }) ∧
    (s.pc < s.cfg.memSize → (∀ o : Op, s.cfg.opcodes.byte o ≠ Memory.read s.mem s.pc) → step s = .next { s with
      status := .faulted
      faultRecord := some { kind := .unknownOpcode, pc := some s.pc, opcode := some (Memory.read s.mem s.pc) } }) ∧
    (s.cfg.opcodes.wf → s.pc < s.cfg.memSize → ∀ o : Op, s.cfg.opcodes.byte o = Memory.read s.mem s.pc →
      s.cfg.memSize ≤ s.pc + operandCount o → step s = .next { s with
        status := .faulted
        faultRecord := some { kind := .outOfBounds, pc := some s.pc, opcode := some (s.cfg.opcodes.byte o) } })

/-- Rules R100, R31, R11 and R105: a step is taken only from Running. From Halted and Faulted, which are terminal, and
from Ready none is, which the model answers by a fault of its own name (log entries 5, 6). The host's `run()` makes
Ready Running, changing nothing else. -/
def Obligations.StepOutsideARun : Prop :=
  ∀ s : State,
    (s.status = .ready → step s = .fault .runNotStarted ∧ s.startRun = some { s with status := .running }) ∧
    (s.status = .halted → step s = .fault .runHalted) ∧
    (s.status = .faulted → step s = .fault .runFaulted) ∧
    ∀ t : State, step s = .next t → s.status = .running

/-- Rule R100 and 93_implementation_defined.md section 1, "every step either completes or faults": every instruction
answers a next state in every state, and so does every step of a Running machine. A fault is such a next state (log
entry 5). -/
def Obligations.NothingIsRefused : Prop :=
  (∀ (i : Instr) (s : State), ∃ t, exec i s = .next t) ∧
  ∀ s : State, s.status = .running → ∃ t, step s = .next t

/-- The row's bits at the PC are what the next step runs: with room for three bytes, a step after `withFetchWord` executes
the instruction the decoder reads from those bits under the machine's OPCODE_MAP (decodeTableWord under the default),
and only memory and the status differ from before (log entry 6). -/
def Obligations.FetchWordRunsNext : Prop :=
  ∀ (s : State) (nbits w : Nat) (i : Instr), s.pc + 3 ≤ s.cfg.memSize →
    decodeWord s.cfg.opcodes nbits w = some i →
    step (s.withFetchWord nbits w) = exec i (s.withFetchWord nbits w) ∧
    s.withFetchWord nbits w = { s with mem := (s.withFetchWord nbits w).mem, status := .running } ∧
    ∀ a : Nat, a < s.pc ∨ s.pc + 3 ≤ a → Memory.read (s.withFetchWord nbits w).mem a = Memory.read s.mem a

/-! ### Faults (60_exceptions.md) -/

/-- Rules R203 and R201: a step that ends Faulted was taken by a Running machine and changes the status and the fault
record only; the record holds a run-time kind and the PC, which stays at the instruction (decisions D13, D16; log
entries 12, 14). -/
def Obligations.FaultEntryIsPrecise : Prop :=
  ∀ s t : State, step s = .next t → t.status = .faulted →
    s.status = .running ∧ ∃ (k : FaultKind) (opc : Option Byte), k ≠ .programTooLarge ∧
      t = { s with status := .faulted, faultRecord := some { kind := k, pc := some s.pc, opcode := opc } }

/-- Rules R23, R76 and R103: an instruction whose register operand is 8 or more raises OutOfBounds before any fault of
its own, whichever operand it is (decisions D14, D19; log entries 11, 13). -/
def Obligations.BadRegisterIndexRaisesOutOfBounds : Prop :=
  ∀ (a b : Byte) (s : State),
    (8 ≤ a.toNat → ∀ i ∈ [Instr.ldi a b, .not a b, .prn a, .pra a, .inc a, .dec a, .push a, .pop a, .call a, .jmp a,
      .jeq a, .jne a], RaisesFault i s .outOfBounds) ∧
    (8 ≤ a.toNat ∨ 8 ≤ b.toNat → ∀ i ∈ [Instr.mul a b, .add a b, .and a b, .or a b, .xor a b, .shl a b, .shr a b,
      .mod a b, .cmp a b, .st a b, .ld a b], RaisesFault i s .outOfBounds)

/-- Rule R200, the rows of an instruction's own faults: if a well-formed instruction faults, it is one of the listed
instructions, for the listed reason and with the listed kind; no other fault exists. A stack access at an address
outside memory is rule R52's OutOfBounds, which only a state outside State.Inv can show (log entry 20; return
address: decision D31, log entry 17). -/
def Obligations.OnlyTheListedFaults : Prop :=
  ∀ (i : Instr) (s : State) (k : FaultKind), i.wellFormed = true → RaisesFault i s k → s.status = .running →
    (∃ (a b : Byte) (h : b.toNat < 8), i = .mod a b ∧ s.regs[b.toNat] = 0 ∧ k = .divisionByZero) ∨
    (∃ a : Byte, (i = .push a ∨ i = .call a) ∧ s.sp = 0 ∧ k = .stackOverflow) ∨
    (∃ a : Byte, (i = .pop a ∨ i = .ret) ∧ s.sp = s.cfg.spInit ∧ k = .stackUnderflow) ∨
    (∃ a : Byte, i = .call a ∧ s.sp ≠ 0 ∧ 255 < s.pc + 2 ∧ k = .outOfBounds) ∨
    (∃ (a b : Byte) (h : b.toNat < 8), i = .ld a b ∧ s.cfg.memSize ≤ s.regs[b.toNat].toNat ∧ k = .outOfBounds) ∨
    (∃ (a b : Byte) (h : a.toNat < 8), i = .st a b ∧ s.cfg.memSize ≤ s.regs[a.toNat].toNat ∧ k = .outOfBounds) ∨
    (∃ a : Byte, (i = .push a ∨ i = .call a) ∧ s.cfg.memSize ≤ s.sp ∧ k = .outOfBounds) ∨
    (∃ a : Byte, (i = .pop a ∨ i = .ret) ∧ s.cfg.memSize ≤ s.sp + 1 ∧ k = .outOfBounds)

/-- Rule R27, "a stack access is never out of bounds": from a state that meets the invariant, no PUSH, POP or RET with a
register operand below 8 raises OutOfBounds, and CALL does so for its return address only. -/
def Obligations.StackAccessIsNeverOutOfBounds : Prop :=
  ∀ (s : State) (a : Byte), s.Inv → s.status = .running → a.toNat < 8 →
    ¬ RaisesFault (.push a) s .outOfBounds ∧ ¬ RaisesFault (.pop a) s .outOfBounds ∧
    ¬ RaisesFault .ret s .outOfBounds ∧ (RaisesFault (.call a) s .outOfBounds → 255 < s.pc + 2)

/-! ### Data movement (41_data.md) -/

/-- Rule R120: LDI writes its literal, any byte, and goes on to the next instruction. -/
def Obligations.LdiLoadsItsLiteral : Prop :=
  ∀ (a imm : Byte) (s : State), a.toNat < 8 →
    encode s.cfg.opcodes (.ldi a imm) = [s.cfg.opcodes.byte .ldi, a, imm] ∧
    WritesRegister (.ldi a imm) s a.toNat imm.toNat 3

/-- Rule R121: LD writes the byte at the address in op_b's register, read before the destination is written; an address
outside memory raises OutOfBounds. -/
def Obligations.LdLoadsTheByteAtItsAddress : Prop :=
  ∀ (a b : Byte) (s : State), a.toNat < 8 → ∀ hb : b.toNat < 8,
    encode s.cfg.opcodes (.ld a b) = [s.cfg.opcodes.byte .ld, a, b] ∧
    (s.regs[b.toNat].toNat < s.cfg.memSize →
      WritesRegister (.ld a b) s a.toNat (Memory.read s.mem s.regs[b.toNat].toNat).toNat 3) ∧
    (s.cfg.memSize ≤ s.regs[b.toNat].toNat → RaisesFault (.ld a b) s .outOfBounds)

/-- Rule R122: ST stores op_b's register at the address in op_a's register and changes no other byte; an address outside
memory raises OutOfBounds. -/
def Obligations.StStoresTheByteAtItsAddress : Prop :=
  ∀ (a b : Byte) (s : State) (ha : a.toNat < 8) (hb : b.toNat < 8),
    encode s.cfg.opcodes (.st a b) = [s.cfg.opcodes.byte .st, a, b] ∧
    (s.regs[a.toNat].toNat < s.cfg.memSize → ∃ t, exec (.st a b) s = .next t ∧
      t = { s with mem := t.mem, pc := s.pc + 3 } ∧
      ∀ x : Nat, Memory.read t.mem x = if x = s.regs[a.toNat].toNat then s.regs[b.toNat] else Memory.read s.mem x) ∧
    (s.cfg.memSize ≤ s.regs[a.toNat].toNat → RaisesFault (.st a b) s .outOfBounds)

/-! ### Output (42_output.md) -/

/-- Rules R130 and R131: PRN appends (Dec, v) and PRA (Chr, v), v the register's value, and nothing else changes but the
PC. -/
def Obligations.PrintAppendsOneEvent : Prop :=
  ∀ (a : Byte) (s : State) (ha : a.toNat < 8),
    encode s.cfg.opcodes (.prn a) = [s.cfg.opcodes.byte .prn, a] ∧
    encode s.cfg.opcodes (.pra a) = [s.cfg.opcodes.byte .pra, a] ∧
    exec (.prn a) s = .next { s with output := s.output ++ [.dec s.regs[a.toNat]], pc := s.pc + 2 } ∧
    exec (.pra a) s = .next { s with output := s.output ++ [.chr s.regs[a.toNat]], pc := s.pc + 2 }

/-! ### ALU (43_alu.md) -/

/-- Rules R140 and R141: the sum and the product modulo 256, stored into op_a. -/
def Obligations.AddAndMulResults : Prop :=
  ∀ (a b : Byte) (s : State) (ha : a.toNat < 8) (hb : b.toNat < 8),
    encode s.cfg.opcodes (.add a b) = [s.cfg.opcodes.byte .add, a, b] ∧
    encode s.cfg.opcodes (.mul a b) = [s.cfg.opcodes.byte .mul, a, b] ∧
    WritesRegister (.add a b) s a.toNat ((s.regs[a.toNat].toNat + s.regs[b.toNat].toNat) % 256) 3 ∧
    WritesRegister (.mul a b) s a.toNat ((s.regs[a.toNat].toNat * s.regs[b.toNat].toNat) % 256) 3

/-- Rules R149 and R150: one more and one less, wrapping modulo 256. -/
def Obligations.IncAndDecResults : Prop :=
  ∀ (a : Byte) (s : State) (ha : a.toNat < 8),
    encode s.cfg.opcodes (.inc a) = [s.cfg.opcodes.byte .inc, a] ∧
    encode s.cfg.opcodes (.dec a) = [s.cfg.opcodes.byte .dec, a] ∧
    WritesRegister (.inc a) s a.toNat ((s.regs[a.toNat].toNat + 1) % 256) 2 ∧
    WritesRegister (.dec a) s a.toNat ((s.regs[a.toNat].toNat + 255) % 256) 2

/-- Rule R142: MOD stores the unsigned remainder, and a zero divisor raises DivisionByZero and leaves every register as it
was. -/
def Obligations.ModResult : Prop :=
  ∀ (a b : Byte) (s : State) (ha : a.toNat < 8) (hb : b.toNat < 8),
    encode s.cfg.opcodes (.mod a b) = [s.cfg.opcodes.byte .mod, a, b] ∧
    (s.regs[b.toNat].toNat ≠ 0 →
      WritesRegister (.mod a b) s a.toNat (s.regs[a.toNat].toNat % s.regs[b.toNat].toNat) 3) ∧
    (s.regs[b.toNat].toNat = 0 → RaisesFault (.mod a b) s .divisionByZero)

/-- Rules R143, R144 and R145: bit i of the result is the AND, OR or XOR of the operands' bits i, and nothing else
changes but the PC. -/
def Obligations.LogicResults : Prop :=
  ∀ (a b : Byte) (s : State) (ha : a.toNat < 8) (hb : b.toNat < 8),
    encode s.cfg.opcodes (.and a b) = [s.cfg.opcodes.byte .and, a, b] ∧
    encode s.cfg.opcodes (.or a b) = [s.cfg.opcodes.byte .or, a, b] ∧
    encode s.cfg.opcodes (.xor a b) = [s.cfg.opcodes.byte .xor, a, b] ∧
    (∃ v : Byte, WritesRegister (.and a b) s a.toNat v.toNat 3 ∧
      ∀ n : Nat, n < 8 → v.getLsbD n = (s.regs[a.toNat].getLsbD n && s.regs[b.toNat].getLsbD n)) ∧
    (∃ v : Byte, WritesRegister (.or a b) s a.toNat v.toNat 3 ∧
      ∀ n : Nat, n < 8 → v.getLsbD n = (s.regs[a.toNat].getLsbD n || s.regs[b.toNat].getLsbD n)) ∧
    (∃ v : Byte, WritesRegister (.xor a b) s a.toNat v.toNat 3 ∧
      ∀ n : Nat, n < 8 → v.getLsbD n = Bool.xor (s.regs[a.toNat].getLsbD n) (s.regs[b.toNat].getLsbD n))

/-- Rule R146: NOT stores 255 minus the value and is three bytes long, whatever its second operand byte (conflict C1,
decision D18; log entry 11). -/
def Obligations.NotResult : Prop :=
  ∀ (a u : Byte) (s : State) (ha : a.toNat < 8),
    encode s.cfg.opcodes (.not a u) = [s.cfg.opcodes.byte .not, a, u] ∧
    WritesRegister (.not a u) s a.toNat (255 - s.regs[a.toNat].toNat) 3

/-- Rules R147 and R148: the whole byte is the shift amount and the shifts bring in zeros, so an amount of 8 or more gives
0 (SHIFT_POLICY full: decision D9, log entry 9). -/
def Obligations.ShiftResults : Prop :=
  ∀ (a b : Byte) (s : State) (ha : a.toNat < 8) (hb : b.toNat < 8),
    encode s.cfg.opcodes (.shl a b) = [s.cfg.opcodes.byte .shl, a, b] ∧
    encode s.cfg.opcodes (.shr a b) = [s.cfg.opcodes.byte .shr, a, b] ∧
    WritesRegister (.shl a b) s a.toNat ((s.regs[a.toNat].toNat * 2 ^ s.regs[b.toNat].toNat) % 256) 3 ∧
    WritesRegister (.shr a b) s a.toNat (s.regs[a.toNat].toNat / 2 ^ s.regs[b.toNat].toNat) 3 ∧
    (8 ≤ s.regs[b.toNat].toNat → WritesRegister (.shl a b) s a.toNat 0 3 ∧ WritesRegister (.shr a b) s a.toNat 0 3)

/-- Rule R152: CMP compares unsigned values, sets exactly one flag, clears the other two, and writes no register. -/
def Obligations.CmpSetsExactlyOneFlag : Prop :=
  ∀ (a b : Byte) (s : State) (ha : a.toNat < 8) (hb : b.toNat < 8),
    encode s.cfg.opcodes (.cmp a b) = [s.cfg.opcodes.byte .cmp, a, b] ∧
    (s.regs[a.toNat].toNat = s.regs[b.toNat].toNat →
      exec (.cmp a b) s = .next { s with fl := { e := true, g := false, l := false }, pc := s.pc + 3 }) ∧
    (s.regs[b.toNat].toNat < s.regs[a.toNat].toNat →
      exec (.cmp a b) s = .next { s with fl := { e := false, g := true, l := false }, pc := s.pc + 3 }) ∧
    (s.regs[a.toNat].toNat < s.regs[b.toNat].toNat →
      exec (.cmp a b) s = .next { s with fl := { e := false, g := false, l := true }, pc := s.pc + 3 })

/-- Rule R155: an operation on one register twice uses its old value for both operands (the spec's own derivation from
rules R140 to R152; shifts: log entry 9). -/
def Obligations.SameRegisterTwice : Prop :=
  ∀ (a : Byte) (s : State) (ha : a.toNat < 8),
    WritesRegister (.add a a) s a.toNat ((2 * s.regs[a.toNat].toNat) % 256) 3 ∧
    WritesRegister (.mul a a) s a.toNat ((s.regs[a.toNat].toNat ^ 2) % 256) 3 ∧
    WritesRegister (.and a a) s a.toNat s.regs[a.toNat].toNat 3 ∧
    WritesRegister (.or a a) s a.toNat s.regs[a.toNat].toNat 3 ∧
    WritesRegister (.xor a a) s a.toNat 0 3 ∧
    WritesRegister (.shl a a) s a.toNat ((s.regs[a.toNat].toNat * 2 ^ s.regs[a.toNat].toNat) % 256) 3 ∧
    WritesRegister (.shr a a) s a.toNat (s.regs[a.toNat].toNat / 2 ^ s.regs[a.toNat].toNat) 3 ∧
    (s.regs[a.toNat].toNat ≠ 0 → WritesRegister (.mod a a) s a.toNat 0 3) ∧
    (s.regs[a.toNat].toNat = 0 → RaisesFault (.mod a a) s .divisionByZero) ∧
    exec (.cmp a a) s = .next { s with fl := { e := true, g := false, l := false }, pc := s.pc + 3 }

/-! ### Stack (44_stack.md, 10_state.md section 3) -/

/-- Rule R170: PUSH writes the register at SP, then decrements SP, and changes no other byte; at SP 0 it raises
StackOverflow and writes nothing (decision D13; log entry 12). -/
def Obligations.PushResult : Prop :=
  ∀ (a : Byte) (s : State) (ha : a.toNat < 8),
    encode s.cfg.opcodes (.push a) = [s.cfg.opcodes.byte .push, a] ∧
    (s.sp ≠ 0 → s.sp < s.cfg.memSize → ∃ t, exec (.push a) s = .next t ∧
      t = { s with mem := t.mem, sp := s.sp - 1, pc := s.pc + 2 } ∧
      ∀ x : Nat, Memory.read t.mem x = if x = s.sp then s.regs[a.toNat] else Memory.read s.mem x) ∧
    (s.sp = 0 → RaisesFault (.push a) s .stackOverflow)

/-- Rule R171: POP increments SP, then reads the byte there into the register, leaving memory as it is; at SP_INIT it
raises StackUnderflow and changes nothing. -/
def Obligations.PopResult : Prop :=
  ∀ (a : Byte) (s : State), a.toNat < 8 →
    encode s.cfg.opcodes (.pop a) = [s.cfg.opcodes.byte .pop, a] ∧
    (s.sp ≠ s.cfg.spInit → s.sp + 1 < s.cfg.memSize → ∃ t, exec (.pop a) s = .next t ∧
      t = { s with regs := t.regs, sp := s.sp + 1, pc := s.pc + 2 } ∧
      ∀ (q : Nat) (h : q < 8), t.regs[q] = if q = a.toNat then Memory.read s.mem (s.sp + 1) else s.regs[q]) ∧
    (s.sp = s.cfg.spInit → RaisesFault (.pop a) s .stackUnderflow)

/-- Rule R172: from 0 < sp ≤ SP_INIT, under rule R7's SP_INIT < MEM_SIZE, PUSH rA and then POP rB leave rB equal to the old
rA, SP at its old value and the old rA at its slot (the spec's derivation from rules R170 and R171). -/
def Obligations.PushThenPopRoundTrips : Prop :=
  ∀ (a b : Byte) (s : State) (ha : a.toNat < 8) (hb : b.toNat < 8),
    0 < s.sp → s.sp ≤ s.cfg.spInit → s.cfg.wf →
    ∃ t u, exec (.push a) s = .next t ∧ exec (.pop b) t = .next u ∧
      u.regs[b.toNat] = s.regs[a.toNat] ∧ u.sp = s.sp ∧ Memory.read u.mem s.sp = s.regs[a.toNat]

/-! ### Control transfer (45_control.md) and HLT (40_cycle.md) -/

/-- Rule R180: CALL pushes the address of the byte after its operand and lands on its register's old value;
StackOverflow is checked first, then a return address above 255 raises OutOfBounds (decision D31; log entry 17). -/
def Obligations.CallResult : Prop :=
  ∀ (a : Byte) (s : State) (ha : a.toNat < 8),
    encode s.cfg.opcodes (.call a) = [s.cfg.opcodes.byte .call, a] ∧
    (s.sp ≠ 0 → s.sp < s.cfg.memSize → s.pc + 2 ≤ 255 → ∃ t, exec (.call a) s = .next t ∧
      t = { s with mem := t.mem, sp := s.sp - 1, pc := s.regs[a.toNat].toNat } ∧
      (Memory.read t.mem s.sp).toNat = s.pc + 2 ∧ ∀ x : Nat, x ≠ s.sp → Memory.read t.mem x = Memory.read s.mem x) ∧
    (s.sp = 0 → RaisesFault (.call a) s .stackOverflow) ∧
    (s.sp ≠ 0 → 255 < s.pc + 2 → RaisesFault (.call a) s .outOfBounds)

/-- Rule R181: RET increments SP and lands on the byte there; at SP_INIT it raises StackUnderflow. -/
def Obligations.RetResult : Prop :=
  ∀ s : State,
    encode s.cfg.opcodes .ret = [s.cfg.opcodes.byte .ret] ∧
    (s.sp ≠ s.cfg.spInit → s.sp + 1 < s.cfg.memSize →
      exec .ret s = .next { s with sp := s.sp + 1, pc := (Memory.read s.mem (s.sp + 1)).toNat }) ∧
    (s.sp = s.cfg.spInit → RaisesFault .ret s .stackUnderflow)

/-- Rule R185: after a CALL at an address below 254, a RET from any state in which SP and the pushed byte are as the CALL
left them returns to the byte after CALL's operand with SP restored (the spec's derivation from rules R180 and
R181). -/
def Obligations.CallThenRetReturns : Prop :=
  ∀ (a : Byte) (s : State), a.toNat < 8 → 0 < s.sp → s.sp ≤ s.cfg.spInit → s.cfg.wf → s.pc < 254 →
    ∃ t, exec (.call a) s = .next t ∧
      ∀ u : State, u.cfg = t.cfg → u.sp = t.sp → Memory.read u.mem s.sp = Memory.read t.mem s.sp →
        exec .ret u = .next { u with sp := s.sp, pc := s.pc + 2 }

/-- Rule R182: JMP lands on its register's value. -/
def Obligations.JmpResult : Prop :=
  ∀ (a : Byte) (s : State) (ha : a.toNat < 8),
    encode s.cfg.opcodes (.jmp a) = [s.cfg.opcodes.byte .jmp, a] ∧
    exec (.jmp a) s = .next { s with pc := s.regs[a.toNat].toNat }

/-- Rule R183: JEQ lands on its register's value when E is set, else goes on to the next instruction. -/
def Obligations.JeqResult : Prop :=
  ∀ (a : Byte) (s : State) (ha : a.toNat < 8),
    encode s.cfg.opcodes (.jeq a) = [s.cfg.opcodes.byte .jeq, a] ∧
    (s.fl.e = true → exec (.jeq a) s = .next { s with pc := s.regs[a.toNat].toNat }) ∧
    (s.fl.e = false → exec (.jeq a) s = .next { s with pc := s.pc + 2 })

/-- Rule R184: JNE lands on its register's value when E is clear, before any CMP too, else goes on to the next
instruction (decision D30; log entry 18). -/
def Obligations.JneResult : Prop :=
  ∀ (a : Byte) (s : State) (ha : a.toNat < 8),
    encode s.cfg.opcodes (.jne a) = [s.cfg.opcodes.byte .jne, a] ∧
    (s.fl.e = false → exec (.jne a) s = .next { s with pc := s.regs[a.toNat].toNat }) ∧
    (s.fl.e = true → exec (.jne a) s = .next { s with pc := s.pc + 2 })

/-- Rule R106: HLT makes the status Halted and changes nothing else, the PC staying at the HLT (decision D17; log entry
16). -/
def Obligations.HltHalts : Prop :=
  ∀ s : State, encode s.cfg.opcodes .hlt = [s.cfg.opcodes.byte .hlt] ∧ exec .hlt s = .next { s with status := .halted }

/-! ### What each instruction leaves unchanged (00_scope.md rule R10) -/

/-- The register-to-register and load forms: whether they complete or fault, every register but op_a's, SP, FL, every
byte of memory, the output and the parameters are as before, and the status and fault record change by a fault
only. -/
def Obligations.RegisterFormsFrame : Prop :=
  ∀ (a b : Byte) (s t : State), ∀ i ∈ [Instr.ldi a b, .ld a b, .add a b, .mul a b, .mod a b, .and a b, .or a b,
      .xor a b, .not a b, .shl a b, .shr a b, .inc a, .dec a], exec i s = .next t →
    (∀ (q : Nat) (h : q < 8), q ≠ a.toNat → t.regs[q] = s.regs[q]) ∧ t.sp = s.sp ∧ t.fl = s.fl ∧
    (∀ x : Nat, Memory.read t.mem x = Memory.read s.mem x) ∧ t.output = s.output ∧ t.cfg = s.cfg ∧
    t.loaded = s.loaded ∧ ((t.status = s.status ∧ t.faultRecord = s.faultRecord) ∨ ∃ k, RaisesFault i s k)

/-- CMP, PRN, PRA, JMP, JEQ, JNE and HLT write no register, no SP and no memory. CMP may change FL alone, PRN and PRA the
output alone, HLT the status alone, each beside the PC. -/
def Obligations.NoRegisterFormsFrame : Prop :=
  ∀ (a b : Byte) (s t : State), ∀ i ∈ [Instr.cmp a b, .prn a, .pra a, .jmp a, .jeq a, .jne a, .hlt],
    exec i s = .next t →
    t.regs = s.regs ∧ t.sp = s.sp ∧ (∀ x : Nat, Memory.read t.mem x = Memory.read s.mem x) ∧ t.cfg = s.cfg ∧
    t.loaded = s.loaded ∧ (i ≠ .cmp a b → t.fl = s.fl) ∧ (i ≠ .prn a → i ≠ .pra a → t.output = s.output) ∧
    ((t.status = s.status ∧ t.faultRecord = s.faultRecord) ∨ (∃ k, RaisesFault i s k) ∨
      (i = .hlt ∧ t.status = .halted ∧ t.faultRecord = s.faultRecord))

/-- ST stores at the address in op_a's register, PUSH and CALL at SP. Every other byte reads as before, no register, flag or
output changes, and SP changes by PUSH and CALL only. -/
def Obligations.StoringFormsFrame : Prop :=
  ∀ (a b : Byte) (s t : State), ∀ i ∈ [Instr.st a b, .push a, .call a], exec i s = .next t →
    t.regs = s.regs ∧ t.fl = s.fl ∧ t.output = s.output ∧ t.cfg = s.cfg ∧ t.loaded = s.loaded ∧
    (i = .st a b → t.sp = s.sp) ∧
    (i = .st a b → ∀ x : Nat, (∀ ha : a.toNat < 8, x ≠ s.regs[a.toNat].toNat) →
      Memory.read t.mem x = Memory.read s.mem x) ∧
    (i ≠ .st a b → ∀ x : Nat, x ≠ s.sp → Memory.read t.mem x = Memory.read s.mem x) ∧
    ((t.status = s.status ∧ t.faultRecord = s.faultRecord) ∨
      ((∃ k, RaisesFault i s k) ∧ ∀ x : Nat, Memory.read t.mem x = Memory.read s.mem x))

/-- POP and RET store nothing: every byte reads as before. POP changes its destination register and SP, RET SP, beside the
PC. -/
def Obligations.PoppingFormsFrame : Prop :=
  ∀ (a : Byte) (s t : State), ∀ i ∈ [Instr.pop a, .ret], exec i s = .next t →
    (∀ (q : Nat) (h : q < 8), i = .ret ∨ q ≠ a.toNat → t.regs[q] = s.regs[q]) ∧ t.fl = s.fl ∧
    (∀ x : Nat, Memory.read t.mem x = Memory.read s.mem x) ∧ t.output = s.output ∧ t.cfg = s.cfg ∧
    t.loaded = s.loaded ∧ ((t.status = s.status ∧ t.faultRecord = s.faultRecord) ∨ ∃ k, RaisesFault i s k)

/-! ### Rules about every instruction and every step -/

/-- Rule R28: CMP is the only instruction that writes FL and it sets exactly one flag, whatever FL was; JEQ and JNE read E
and land as rules R183 and R184 say, JNE with E clear before any CMP included (decision D30; log entry 18), and no
instruction reads G or L: with other values in them JEQ and JNE do the same, and every other instruction but CMP
does the same with any FL at all, keeping it. -/
def Obligations.FlagsAreCmpsAlone : Prop :=
  (∀ (i : Instr) (s t : State), (∀ a b : Byte, i ≠ .cmp a b) → exec i s = .next t → t.fl = s.fl) ∧
  (∀ (a b : Byte) (s t : State) (f : Flags), a.toNat < 8 → b.toNat < 8 → exec (.cmp a b) s = .next t →
    t.fl.e.toNat + t.fl.g.toNat + t.fl.l.toNat = 1 ∧ exec (.cmp a b) { s with fl := f } = .next t) ∧
  (∀ (a : Byte) (s : State) (ha : a.toNat < 8), ∃ t u, exec (.jeq a) s = .next t ∧ exec (.jne a) s = .next u ∧
    t.pc = (if s.fl.e then s.regs[a.toNat].toNat else s.pc + 2) ∧
    u.pc = (if s.fl.e then s.pc + 2 else s.regs[a.toNat].toNat)) ∧
  (∀ (i : Instr) (s t : State) (g l : Bool), (∀ a b : Byte, i ≠ .cmp a b) → exec i s = .next t →
    exec i { s with fl := { s.fl with g := g, l := l } } = .next { t with fl := { t.fl with g := g, l := l } }) ∧
  (∀ (i : Instr) (s t : State) (f : Flags), (∀ a b : Byte, i ≠ .cmp a b ∧ i ≠ .jeq a ∧ i ≠ .jne a) →
    exec i s = .next t → exec i { s with fl := f } = .next { t with fl := f })

/-- Rule R26: no instruction writes SP except PUSH, POP, CALL and RET, and none of the others reads it: with another SP
they do the same to everything else. -/
def Obligations.StackPointerIsTheStackInstructions : Prop :=
  ∀ (i : Instr) (s t : State) (v : Nat), (∀ a : Byte, i ≠ .push a ∧ i ≠ .pop a ∧ i ≠ .call a) → i ≠ .ret →
    exec i s = .next t → t.sp = s.sp ∧ exec i { s with sp := v } = .next { t with sp := v }

/-- Rule R34: only ST, PUSH, CALL and `load` write memory; every other instruction, and the start of a run, leaves every
byte as it is, and a step that changes memory found the opcode of one of the three at its PC. -/
def Obligations.MemoryIsWrittenByStoresOnly : Prop :=
  (∀ (i : Instr) (s t : State), (∀ a b : Byte, i ≠ .st a b ∧ i ≠ .push a ∧ i ≠ .call a) → exec i s = .next t →
    t.mem = s.mem) ∧
  ∀ s t : State, (s.startRun = some t → t.mem = s.mem) ∧
    (step s = .next t → t.mem ≠ s.mem → ∃ o ∈ [Op.st, .push, .call], Memory.read s.mem s.pc = s.cfg.opcodes.byte o)

/-- Rule R21: r7 holds R7_INIT at reset and no instruction uses it implicitly: one that does not name r7 by an operand
keeps it and does the same, whatever r7 holds. It is not the stack pointer. -/
def Obligations.R7HasNoRole : Prop :=
  (∀ c : Config, (State.construct c).regs[7] = c.r7Init) ∧
  ∀ (i : Instr) (s t : State) (v : Byte), (∀ r ∈ i.regOperands, r.toNat ≠ 7) → exec i s = .next t →
    t.regs[7] = s.regs[7] ∧
    exec i { s with regs := s.regs.set 7 v } = .next { t with regs := t.regs.set 7 v }

/-- Rule R25: the PC after an instruction is its own address plus its length, or a taken transfer's target, or its own
address for HLT and for a fault; and a PC outside memory is no fault until the next fetch (decisions D13, D17, D28; log
entries 12, 16, 21). -/
def Obligations.PcIsWrittenOnce : Prop :=
  (∀ (i : Instr) (s t : State), s.status = .running → exec i s = .next t →
    (t.status = .faulted ∧ t.pc = s.pc) ∨ (i = .hlt ∧ t.pc = s.pc) ∨
    (∃ (a : Byte) (h : a.toNat < 8), (i = .call a ∨ i = .jmp a ∨ (i = .jeq a ∧ s.fl.e = true) ∨
      (i = .jne a ∧ s.fl.e = false)) ∧ t.pc = s.regs[a.toNat].toNat) ∨
    (i = .ret ∧ t.pc = (Memory.read s.mem (s.sp + 1)).toNat) ∨
    (i ≠ .hlt ∧ i ≠ .ret ∧ (∀ a : Byte, i ≠ .call a ∧ i ≠ .jmp a ∧ (i = .jeq a → s.fl.e = false) ∧
      (i = .jne a → s.fl.e = true)) ∧ t.pc = s.pc + (encode s.cfg.opcodes i).length)) ∧
  ∀ s : State, s.status = .running → s.cfg.memSize ≤ s.pc → ∃ t, step s = .next t ∧ t.status = .faulted ∧
    t.faultRecord = some { kind := .outOfBounds, pc := some s.pc, opcode := none }

/-- Rule R30: the output stream grows at its end by at most one event a step, and only PRN and PRA add one. -/
def Obligations.OutputOnlyGrows : Prop :=
  (∀ (i : Instr) (s t : State), (∀ a : Byte, i ≠ .prn a ∧ i ≠ .pra a) → exec i s = .next t → t.output = s.output) ∧
  ∀ s t : State, step s = .next t → t.output = s.output ∨ ∃ e, t.output = s.output ++ [e]

/-- Rules R31 and R106: from Running, a step leads to Running, Halted or Faulted; an instruction leads to Halted exactly
if it is HLT. The parameters and the load bit are never changed by a step (log entries 4, 7). -/
def Obligations.StepKeepsTheRunInOrder : Prop :=
  (∀ (i : Instr) (s t : State), s.status = .running → exec i s = .next t → (t.status = .halted ↔ i = .hlt)) ∧
  ∀ s t : State, step s = .next t → t.status ≠ .ready ∧ t.cfg = s.cfg ∧ t.loaded = s.loaded

/-! ### Memory (20_memory.md) -/

/-- Rules R52, R53 and R57: a one-byte write inside memory is read back, changes no other byte and nothing else, and an
access outside memory is OutOfBounds. -/
def Obligations.MemoryWriteIsReadBack : Prop :=
  ∀ (s : State) (a : Nat) (v : Byte),
    (a < s.cfg.memSize → ∃ t, s.memWrite a v = .ok t ∧ t.memRead a = .ok v ∧ t = { s with mem := t.mem } ∧
      ∀ x : Nat, x ≠ a → t.memRead x = s.memRead x) ∧
    (s.cfg.memSize ≤ a → s.memWrite a v = .error .outOfBounds ∧ s.memRead a = .error .outOfBounds)

/-- Two memories in canonical form that read alike everywhere are the same data (log entry 19). -/
def Obligations.CanonicalMemoryIsItsReads : Prop :=
  ∀ m n : Memory, Memory.wf m → Memory.wf n → (∀ a : Nat, Memory.read m a = Memory.read n a) → m = n

/-- Rule R62: a byte that ST stores is what a later step fetches there: a Running machine with that memory and its PC at
that address takes the stored byte as its opcode and the bytes after it, unchanged by the store, as its operands
(decision D22; log entry 24). -/
def Obligations.StoresAreSeenByFetch : Prop :=
  ∀ (a b : Byte) (s t u : State) (ha : a.toNat < 8) (hb : b.toNat < 8),
    s.regs[a.toNat].toNat < s.cfg.memSize → exec (.st a b) s = .next t → u.status = .running → u.cfg = t.cfg →
    u.mem = t.mem → u.pc = s.regs[a.toNat].toNat →
    (s.cfg.opcodes.wf → ∀ i : Instr, (encode s.cfg.opcodes i)[0]? = some s.regs[b.toNat] →
      u.pc + (encode s.cfg.opcodes i).length ≤ u.cfg.memSize →
      (∀ (k : Nat) (h : k < (encode s.cfg.opcodes i).length), 0 < k →
        Memory.read s.mem (u.pc + k) = (encode s.cfg.opcodes i)[k]) → step u = exec i u) ∧
    ((∀ o : Op, s.cfg.opcodes.byte o ≠ s.regs[b.toNat]) → ∃ v, step u = .next v ∧
      v.faultRecord = some { kind := .unknownOpcode, pc := some u.pc, opcode := some s.regs[b.toNat] })

/-! ### Reset, load and the invariant (70_reset_and_hazards.md) -/

/-- Rules R230 and R56: what reset leaves, for all parameters: r0 to r6 zero, r7 = R7_INIT, pc 0, sp = SP_INIT, FL clear,
every byte of memory zero, no output, status Ready, no fault record (decisions D11, D27; log entries 27, 19;
FL clear is rule R29's own derivation, log entry 18). -/
def Obligations.ResetLeaves : Prop :=
  ∀ c : Config,
    (∀ (q : Nat) (h : q < 7), (State.construct c).regs[q] = 0) ∧ (State.construct c).regs[7] = c.r7Init ∧
    (State.construct c).pc = 0 ∧ (State.construct c).sp = c.spInit ∧
    (State.construct c).fl = { e := false, g := false, l := false } ∧
    (∀ a : Nat, Memory.read (State.construct c).mem a = 0) ∧ (State.construct c).output = [] ∧
    (State.construct c).status = .ready ∧ (State.construct c).faultRecord = none

/-- Rule R232: `load` of at most MEM_SIZE bytes writes them from address 0 and changes nothing else; of more, it writes
nothing and records ProgramTooLarge; and it is possible once, while Ready (decision D32; log entries 7, 8). -/
def Obligations.LoadPlacesTheImage : Prop :=
  ∀ (s : State) (bytes : List Byte),
    (s.status = .ready → s.loaded = false → bytes.length ≤ s.cfg.memSize → ∃ t, s.load bytes = some t ∧
      t = { s with mem := t.mem, loaded := true } ∧
      (∀ (k : Nat) (h : k < bytes.length), Memory.read t.mem k = bytes[k]) ∧
      (∀ a : Nat, bytes.length ≤ a → Memory.read t.mem a = Memory.read s.mem a)) ∧
    (s.status = .ready → s.loaded = false → s.cfg.memSize < bytes.length → s.load bytes = some { s with
      status := .faulted, faultRecord := some { kind := .programTooLarge, pc := none, opcode := none } }) ∧
    (s.status ≠ .ready ∨ s.loaded = true → s.load bytes = none)

/-- Rules R105, R31 and R215: `run()` from Ready is the steps from Running; from Halted or Faulted it does nothing and returns
that status again; from Running it is no move (log entry 8). A budget stops between two steps, so a run cut in two
is the same run, and a run it stops is still Running. -/
def Obligations.RunIsItsSteps : Prop :=
  (∀ (n : Nat) (s : State),
    (s.status = .ready → s.run n = some (State.runSteps n { s with status := .running },
      (State.runSteps n { s with status := .running }).runResult)) ∧
    (s.status = .halted → s.run n = some (s, some .halted)) ∧
    (∀ r : FaultRecord, s.status = .faulted → s.faultRecord = some r → s.run n = some (s, some (.faulted r.kind))) ∧
    (s.status = .running → s.run n = none)) ∧
  (∀ (m n : Nat) (s : State), State.runSteps (m + n) s = State.runSteps n (State.runSteps m s)) ∧
  ∀ (n : Nat) (s : State), s.status = .running →
    (State.runSteps n s).status = .running ∨ (State.runSteps n s).status = .halted ∨
      (State.runSteps n s).status = .faulted

/-- The invariant holds right after reset, with the default parameters and with all parameters that meet rule R7's
constraint. -/
def Obligations.ResetMeetsTheInvariant : Prop :=
  State.reset.Inv ∧ ∀ c : Config, c.wf → (State.construct c).Inv

/-- Every step from a state that meets State.Inv leads to a state that meets it. The invariant is the model's own: its
bounds on SP, the flags and the memory slots are rules R26, R28 and R34, its PC bound the larger of MEM_SIZE and 255
is log entry 15, the canonical memory log entry 19, and the shape of the fault record log entry 14. -/
def Obligations.StepKeepsTheInvariant : Prop :=
  ∀ s t : State, s.Inv → step s = .next t → t.Inv

/-- The invariant holds of every state the host's moves and the steps reach (its choices: log entries 14, 15, 19), and in
a reachable state with MEM_SIZE at least 253 the PC is in rule R24's range [0, MEM_SIZE + 2] (smaller memories: log entry 15). -/
def Obligations.ReachableStatesMeetTheInvariant : Prop :=
  ∀ s : State, Reachable s → s.Inv ∧ (253 ≤ s.cfg.memSize → s.pc ≤ s.cfg.memSize + 2)

/-- The host's moves, `load` of any bytes and the start of a run, keep the invariant (its choices: log entries 14, 15,
19). -/
def Obligations.HostMovesKeepTheInvariant : Prop :=
  ∀ s t : State, s.Inv →
    (∀ bytes : List Byte, s.load bytes = some t → t.Inv) ∧ (s.startRun = some t → t.Inv)
end

