-- ==== Sys2Proof/Laws/Decode.lean ====
section
/-! SUPPORT. What the opcode lookup, the taking of operands and the decoder do. -/

namespace Sys2Proof

theorem mem_allOps (o : Op) : o ∈ allOps := by cases o <;> decide

variable {m : OpcodeMap}

theorem OpcodeMap.map_byte_allOps (m : OpcodeMap) : allOps.map m.byte = m.bytes := rfl

/-- Distinct opcode bytes are those of distinct operations. -/
theorem OpcodeMap.wf.byte_inj (h : m.wf) {o p : Op} (hb : m.byte o = m.byte p) : o = p := by
  rw [OpcodeMap.wf, ← m.map_byte_allOps] at h
  exact List.inj_on_of_nodup_map h (mem_allOps o) (mem_allOps p) hb

theorem defaultOpcodeMap_wf : defaultOpcodeMap.wf := by decide

theorem byte_of_lookupOp {b : Byte} {o : Op} (h : lookupOp m b = some o) : m.byte o = b := by
  simpa using List.find?_some h

theorem lookupOp_eq_none {b : Byte} : lookupOp m b = none ↔ ∀ o : Op, m.byte o ≠ b := by
  rw [lookupOp, List.find?_eq_none]
  exact ⟨fun h o => by simpa using h o (mem_allOps o), fun h o _ => by simpa using h o⟩

/-- With distinct opcode bytes the lookup inverts the map. -/
theorem lookupOp_byte (h : m.wf) (o : Op) : lookupOp m (m.byte o) = some o := by
  rcases hl : lookupOp m (m.byte o) with _ | p
  · exact absurd rfl (lookupOp_eq_none.mp hl o)
  · rw [h.byte_inj (byte_of_lookupOp hl)]

/-- With enough bytes the operands are taken and the rest is left; with fewer, an operand is missing. -/
theorem takeOperands_cases (o : Op) (opc : Byte) (rest : List Byte) :
    (rest.length < operandCount o ∧ takeOperands o opc (operandCount o) rest = .rejected (.missingOperand opc)) ∨
    (operandCount o ≤ rest.length ∧ ∃ i : Instr, i.op = o ∧ i.operands = rest.take (operandCount o) ∧
      takeOperands o opc (operandCount o) rest = .instr i (rest.drop (operandCount o))) := by
  rcases rest with _ | ⟨a, _ | ⟨b, rest⟩⟩ <;> cases o <;>
    first
    | exact .inl ⟨by simp [operandCount], rfl⟩
    | exact .inr ⟨by simp [operandCount], _, rfl, rfl, rfl⟩

@[simp] theorem decode_nil : decode m [] = .rejected .noByte := rfl

theorem decode_of_unknown {opc : Byte} (rest : List Byte) (h : lookupOp m opc = none) :
    decode m (opc :: rest) = .rejected (.unknownOpcode opc) := by simp only [decode, h]

theorem decode_of_known {opc : Byte} {o : Op} (rest : List Byte) (h : lookupOp m opc = some o) :
    decode m (opc :: rest) = takeOperands o opc (operandCount o) rest := by simp only [decode, h]

/-- The operand bytes of an instruction are as many as the table says. -/
theorem Instr.length_operands (i : Instr) : i.operands.length = operandCount i.op := by cases i <;> rfl

theorem length_encode (m : OpcodeMap) (i : Instr) : (encode m i).length = opLength i.op := by
  simp [encode, opLength, Instr.length_operands, Nat.add_comm]

/-- An instruction is its operation and its operand bytes. -/
theorem Instr.ext_op_operands {i j : Instr} (ho : i.op = j.op) (hb : i.operands = j.operands) : i = j := by
  cases i <;> cases j <;>
    first
    | rfl
    | (simp [Instr.op] at ho; done)
    | (simp only [Instr.operands, List.cons.injEq] at hb; simp [hb])

end Sys2Proof
end

