-- ==== Sys2Proof/Laws/State.lean ====
section
/-! SUPPORT. What each update of State does to each field, one lemma each. -/

namespace Sys2Proof.Machine

variable (s : State)

/-! ### setReg -/

@[simp] theorem State.setReg_cfg (r : Fin 8) (v : Byte) : (s.setReg r v).cfg = s.cfg := rfl
@[simp] theorem State.setReg_regs (r : Fin 8) (v : Byte) : (s.setReg r v).regs = s.regs.set r v := rfl
@[simp] theorem State.setReg_pc (r : Fin 8) (v : Byte) : (s.setReg r v).pc = s.pc := rfl
@[simp] theorem State.setReg_sp (r : Fin 8) (v : Byte) : (s.setReg r v).sp = s.sp := rfl
@[simp] theorem State.setReg_fl (r : Fin 8) (v : Byte) : (s.setReg r v).fl = s.fl := rfl
@[simp] theorem State.setReg_mem (r : Fin 8) (v : Byte) : (s.setReg r v).mem = s.mem := rfl
@[simp] theorem State.setReg_output (r : Fin 8) (v : Byte) : (s.setReg r v).output = s.output := rfl
@[simp] theorem State.setReg_status (r : Fin 8) (v : Byte) : (s.setReg r v).status = s.status := rfl
@[simp] theorem State.setReg_faultRecord (r : Fin 8) (v : Byte) : (s.setReg r v).faultRecord = s.faultRecord := rfl
@[simp] theorem State.setReg_loaded (r : Fin 8) (v : Byte) : (s.setReg r v).loaded = s.loaded := rfl

/-! ### setPc -/

@[simp] theorem State.setPc_cfg (target : Nat) : (s.setPc target).cfg = s.cfg := rfl
@[simp] theorem State.setPc_regs (target : Nat) : (s.setPc target).regs = s.regs := rfl
@[simp] theorem State.setPc_pc (target : Nat) : (s.setPc target).pc = target := rfl
@[simp] theorem State.setPc_sp (target : Nat) : (s.setPc target).sp = s.sp := rfl
@[simp] theorem State.setPc_fl (target : Nat) : (s.setPc target).fl = s.fl := rfl
@[simp] theorem State.setPc_mem (target : Nat) : (s.setPc target).mem = s.mem := rfl
@[simp] theorem State.setPc_output (target : Nat) : (s.setPc target).output = s.output := rfl
@[simp] theorem State.setPc_status (target : Nat) : (s.setPc target).status = s.status := rfl
@[simp] theorem State.setPc_faultRecord (target : Nat) : (s.setPc target).faultRecord = s.faultRecord := rfl
@[simp] theorem State.setPc_loaded (target : Nat) : (s.setPc target).loaded = s.loaded := rfl

/-! ### advance -/

@[simp] theorem State.advance_cfg (o : Op) : (s.advance o).cfg = s.cfg := rfl
@[simp] theorem State.advance_regs (o : Op) : (s.advance o).regs = s.regs := rfl
@[simp] theorem State.advance_pc (o : Op) : (s.advance o).pc = s.pc + opLength o := rfl
@[simp] theorem State.advance_sp (o : Op) : (s.advance o).sp = s.sp := rfl
@[simp] theorem State.advance_fl (o : Op) : (s.advance o).fl = s.fl := rfl
@[simp] theorem State.advance_mem (o : Op) : (s.advance o).mem = s.mem := rfl
@[simp] theorem State.advance_output (o : Op) : (s.advance o).output = s.output := rfl
@[simp] theorem State.advance_status (o : Op) : (s.advance o).status = s.status := rfl
@[simp] theorem State.advance_faultRecord (o : Op) : (s.advance o).faultRecord = s.faultRecord := rfl
@[simp] theorem State.advance_loaded (o : Op) : (s.advance o).loaded = s.loaded := rfl

/-! ### setSp -/

@[simp] theorem State.setSp_cfg (v : Nat) : (s.setSp v).cfg = s.cfg := rfl
@[simp] theorem State.setSp_regs (v : Nat) : (s.setSp v).regs = s.regs := rfl
@[simp] theorem State.setSp_pc (v : Nat) : (s.setSp v).pc = s.pc := rfl
@[simp] theorem State.setSp_sp (v : Nat) : (s.setSp v).sp = v := rfl
@[simp] theorem State.setSp_fl (v : Nat) : (s.setSp v).fl = s.fl := rfl
@[simp] theorem State.setSp_mem (v : Nat) : (s.setSp v).mem = s.mem := rfl
@[simp] theorem State.setSp_output (v : Nat) : (s.setSp v).output = s.output := rfl
@[simp] theorem State.setSp_status (v : Nat) : (s.setSp v).status = s.status := rfl
@[simp] theorem State.setSp_faultRecord (v : Nat) : (s.setSp v).faultRecord = s.faultRecord := rfl
@[simp] theorem State.setSp_loaded (v : Nat) : (s.setSp v).loaded = s.loaded := rfl

/-! ### setFl -/

@[simp] theorem State.setFl_cfg (f : Flags) : (s.setFl f).cfg = s.cfg := rfl
@[simp] theorem State.setFl_regs (f : Flags) : (s.setFl f).regs = s.regs := rfl
@[simp] theorem State.setFl_pc (f : Flags) : (s.setFl f).pc = s.pc := rfl
@[simp] theorem State.setFl_sp (f : Flags) : (s.setFl f).sp = s.sp := rfl
@[simp] theorem State.setFl_fl (f : Flags) : (s.setFl f).fl = f := rfl
@[simp] theorem State.setFl_mem (f : Flags) : (s.setFl f).mem = s.mem := rfl
@[simp] theorem State.setFl_output (f : Flags) : (s.setFl f).output = s.output := rfl
@[simp] theorem State.setFl_status (f : Flags) : (s.setFl f).status = s.status := rfl
@[simp] theorem State.setFl_faultRecord (f : Flags) : (s.setFl f).faultRecord = s.faultRecord := rfl
@[simp] theorem State.setFl_loaded (f : Flags) : (s.setFl f).loaded = s.loaded := rfl

/-! ### setMem -/

@[simp] theorem State.setMem_cfg (m : Memory) : (s.setMem m).cfg = s.cfg := rfl
@[simp] theorem State.setMem_regs (m : Memory) : (s.setMem m).regs = s.regs := rfl
@[simp] theorem State.setMem_pc (m : Memory) : (s.setMem m).pc = s.pc := rfl
@[simp] theorem State.setMem_sp (m : Memory) : (s.setMem m).sp = s.sp := rfl
@[simp] theorem State.setMem_fl (m : Memory) : (s.setMem m).fl = s.fl := rfl
@[simp] theorem State.setMem_mem (m : Memory) : (s.setMem m).mem = m := rfl
@[simp] theorem State.setMem_output (m : Memory) : (s.setMem m).output = s.output := rfl
@[simp] theorem State.setMem_status (m : Memory) : (s.setMem m).status = s.status := rfl
@[simp] theorem State.setMem_faultRecord (m : Memory) : (s.setMem m).faultRecord = s.faultRecord := rfl
@[simp] theorem State.setMem_loaded (m : Memory) : (s.setMem m).loaded = s.loaded := rfl

/-! ### emit -/

@[simp] theorem State.emit_cfg (e : OutEvent) : (s.emit e).cfg = s.cfg := rfl
@[simp] theorem State.emit_regs (e : OutEvent) : (s.emit e).regs = s.regs := rfl
@[simp] theorem State.emit_pc (e : OutEvent) : (s.emit e).pc = s.pc := rfl
@[simp] theorem State.emit_sp (e : OutEvent) : (s.emit e).sp = s.sp := rfl
@[simp] theorem State.emit_fl (e : OutEvent) : (s.emit e).fl = s.fl := rfl
@[simp] theorem State.emit_mem (e : OutEvent) : (s.emit e).mem = s.mem := rfl
@[simp] theorem State.emit_output (e : OutEvent) : (s.emit e).output = s.output ++ [e] := rfl
@[simp] theorem State.emit_status (e : OutEvent) : (s.emit e).status = s.status := rfl
@[simp] theorem State.emit_faultRecord (e : OutEvent) : (s.emit e).faultRecord = s.faultRecord := rfl
@[simp] theorem State.emit_loaded (e : OutEvent) : (s.emit e).loaded = s.loaded := rfl

/-! ### setStatus -/

@[simp] theorem State.setStatus_cfg (r : RunStatus) : (s.setStatus r).cfg = s.cfg := rfl
@[simp] theorem State.setStatus_regs (r : RunStatus) : (s.setStatus r).regs = s.regs := rfl
@[simp] theorem State.setStatus_pc (r : RunStatus) : (s.setStatus r).pc = s.pc := rfl
@[simp] theorem State.setStatus_sp (r : RunStatus) : (s.setStatus r).sp = s.sp := rfl
@[simp] theorem State.setStatus_fl (r : RunStatus) : (s.setStatus r).fl = s.fl := rfl
@[simp] theorem State.setStatus_mem (r : RunStatus) : (s.setStatus r).mem = s.mem := rfl
@[simp] theorem State.setStatus_output (r : RunStatus) : (s.setStatus r).output = s.output := rfl
@[simp] theorem State.setStatus_status (r : RunStatus) : (s.setStatus r).status = r := rfl
@[simp] theorem State.setStatus_faultRecord (r : RunStatus) : (s.setStatus r).faultRecord = s.faultRecord := rfl
@[simp] theorem State.setStatus_loaded (r : RunStatus) : (s.setStatus r).loaded = s.loaded := rfl

/-! ### raiseFault -/

@[simp] theorem State.raiseFault_cfg (k : FaultKind) (opc : Option Byte) : (s.raiseFault k opc).cfg = s.cfg := rfl
@[simp] theorem State.raiseFault_regs (k : FaultKind) (opc : Option Byte) : (s.raiseFault k opc).regs = s.regs := rfl
@[simp] theorem State.raiseFault_pc (k : FaultKind) (opc : Option Byte) : (s.raiseFault k opc).pc = s.pc := rfl
@[simp] theorem State.raiseFault_sp (k : FaultKind) (opc : Option Byte) : (s.raiseFault k opc).sp = s.sp := rfl
@[simp] theorem State.raiseFault_fl (k : FaultKind) (opc : Option Byte) : (s.raiseFault k opc).fl = s.fl := rfl
@[simp] theorem State.raiseFault_mem (k : FaultKind) (opc : Option Byte) : (s.raiseFault k opc).mem = s.mem := rfl
@[simp] theorem State.raiseFault_output (k : FaultKind) (opc : Option Byte) : (s.raiseFault k opc).output = s.output := rfl
@[simp] theorem State.raiseFault_status (k : FaultKind) (opc : Option Byte) : (s.raiseFault k opc).status = .faulted := rfl
@[simp] theorem State.raiseFault_faultRecord (k : FaultKind) (opc : Option Byte) : (s.raiseFault k opc).faultRecord = some { kind := k, pc := some s.pc, opcode := opc } := rfl
@[simp] theorem State.raiseFault_loaded (k : FaultKind) (opc : Option Byte) : (s.raiseFault k opc).loaded = s.loaded := rfl

/-! ### Reading a register -/

@[simp] theorem State.reg_setPc (target : Nat) (q : Fin 8) : (s.setPc target).reg q = s.reg q := rfl
@[simp] theorem State.reg_advance (o : Op) (q : Fin 8) : (s.advance o).reg q = s.reg q := rfl
@[simp] theorem State.reg_setSp (v : Nat) (q : Fin 8) : (s.setSp v).reg q = s.reg q := rfl
@[simp] theorem State.reg_setFl (f : Flags) (q : Fin 8) : (s.setFl f).reg q = s.reg q := rfl
@[simp] theorem State.reg_setMem (m : Memory) (q : Fin 8) : (s.setMem m).reg q = s.reg q := rfl
@[simp] theorem State.reg_emit (e : OutEvent) (q : Fin 8) : (s.emit e).reg q = s.reg q := rfl
@[simp] theorem State.reg_setStatus (r : RunStatus) (q : Fin 8) : (s.setStatus r).reg q = s.reg q := rfl
@[simp] theorem State.reg_raiseFault (k : FaultKind) (opc : Option Byte) (q : Fin 8) : (s.raiseFault k opc).reg q = s.reg q := rfl

/-- A write to one register is read back there and nowhere else. -/
theorem State.reg_setReg (r q : Fin 8) (v : Byte) : (s.setReg r v).reg q = if q = r then v else s.reg q := by
  unfold State.reg State.setReg
  rw [Fin.getElem_fin, Vector.getElem_set]
  simp only [Fin.ext_iff, eq_comm, Fin.getElem_fin]

@[simp] theorem State.reg_setReg_self (r : Fin 8) (v : Byte) : (s.setReg r v).reg r = v := by
  simp [State.reg_setReg]

end Sys2Proof.Machine
end

