-- ==== Sys2Proof/Laws/Ops.lean ====
section
/-! SUPPORT. What each shared operation does, said once: provers cite these and do not unfold the operations. -/

namespace Sys2Proof.Machine

/-! ### The error monad -/

@[simp] theorem bind_ok {ε α β : Type} (x : α) (f : α → Except ε β) : (Except.ok x >>= f) = f x := rfl

@[simp] theorem bind_error {ε α β : Type} (e : ε) (f : α → Except ε β) :
    ((Except.error e : Except ε α) >>= f) = .error e := rfl

/-! ### Register operands -/

theorem regOperand_of_lt {b : Byte} (h : b.toNat < 8) : regOperand b = .ok ⟨b.toNat, h⟩ := dif_pos h

theorem regOperand_of_ge {b : Byte} (h : 8 ≤ b.toNat) : regOperand b = .error .outOfBounds :=
  dif_neg (Nat.not_lt.mpr h)

/-- A register operand is an index below 8 or OutOfBounds. -/
theorem regOperand_cases (b : Byte) :
    (∃ h : b.toNat < 8, regOperand b = .ok ⟨b.toNat, h⟩) ∨ (8 ≤ b.toNat ∧ regOperand b = .error .outOfBounds) := by
  by_cases h : b.toNat < 8
  · exact .inl ⟨h, regOperand_of_lt h⟩
  · exact .inr ⟨Nat.not_lt.mp h, regOperand_of_ge (Nat.not_lt.mp h)⟩

theorem regOperands2_of_lt {a b : Byte} (ha : a.toNat < 8) (hb : b.toNat < 8) :
    regOperands2 a b = .ok (⟨a.toNat, ha⟩, ⟨b.toNat, hb⟩) := by
  simp [regOperands2, regOperand_of_lt, ha, hb]

theorem regOperands2_of_ge {a b : Byte} (h : 8 ≤ a.toNat ∨ 8 ≤ b.toNat) :
    regOperands2 a b = .error .outOfBounds := by
  unfold regOperands2
  rcases regOperand_cases a with ⟨ha, hoka⟩ | ⟨_, herr⟩
  · rw [hoka, bind_ok, regOperand_of_ge (h.resolve_left (Nat.not_le.mpr ha)), bind_error]
  · rw [herr, bind_error]

/-- Two register operands are two indices below 8 or OutOfBounds. -/
theorem regOperands2_cases (a b : Byte) :
    (∃ (ha : a.toNat < 8) (hb : b.toNat < 8), regOperands2 a b = .ok (⟨a.toNat, ha⟩, ⟨b.toNat, hb⟩)) ∨
    ((8 ≤ a.toNat ∨ 8 ≤ b.toNat) ∧ regOperands2 a b = .error .outOfBounds) := by
  by_cases h : a.toNat < 8 ∧ b.toNat < 8
  · exact .inl ⟨h.1, h.2, regOperands2_of_lt h.1 h.2⟩
  · have : 8 ≤ a.toNat ∨ 8 ≤ b.toNat := by omega
    exact .inr ⟨this, regOperands2_of_ge this⟩

/-! ### Bounds-checked memory -/

theorem State.memRead_of_lt {s : State} {a : Nat} (h : a < s.cfg.memSize) :
    s.memRead a = .ok (Memory.read s.mem a) := if_pos h

theorem State.memRead_of_ge {s : State} {a : Nat} (h : s.cfg.memSize ≤ a) :
    s.memRead a = .error .outOfBounds := if_neg (Nat.not_lt.mpr h)

theorem State.memWrite_of_lt {s : State} {a : Nat} (v : Byte) (h : a < s.cfg.memSize) :
    s.memWrite a v = .ok (s.setMem (Memory.write s.mem a v)) := if_pos h

theorem State.memWrite_of_ge {s : State} {a : Nat} (v : Byte) (h : s.cfg.memSize ≤ a) :
    s.memWrite a v = .error .outOfBounds := if_neg (Nat.not_lt.mpr h)

/-! ### The stack -/

/-- Everything a push can do (10_state.md rule R27). -/
theorem State.pushByte_cases (s : State) (v : Byte) :
    (s.sp = 0 ∧ s.pushByte v = .error .stackOverflow) ∨
    (s.sp ≠ 0 ∧ s.cfg.memSize ≤ s.sp ∧ s.pushByte v = .error .outOfBounds) ∨
    (s.sp ≠ 0 ∧ s.sp < s.cfg.memSize ∧
      s.pushByte v = .ok ((s.setMem (Memory.write s.mem s.sp v)).setSp (s.sp - 1))) := by
  unfold State.pushByte
  by_cases h0 : s.sp = 0
  · exact .inl ⟨h0, if_pos h0⟩
  · rw [if_neg h0]
    by_cases hm : s.sp < s.cfg.memSize
    · exact .inr (.inr ⟨h0, hm, by rw [State.memWrite_of_lt v hm, bind_ok]⟩)
    · exact .inr (.inl ⟨h0, Nat.not_lt.mp hm, by rw [State.memWrite_of_ge v (Nat.not_lt.mp hm), bind_error]⟩)

/-- Everything a pop can do (10_state.md rule R27). -/
theorem State.popByte_cases (s : State) :
    (s.sp = s.cfg.spInit ∧ s.popByte = .error .stackUnderflow) ∨
    (s.sp ≠ s.cfg.spInit ∧ s.cfg.memSize ≤ s.sp + 1 ∧ s.popByte = .error .outOfBounds) ∨
    (s.sp ≠ s.cfg.spInit ∧ s.sp + 1 < s.cfg.memSize ∧
      s.popByte = .ok (Memory.read s.mem (s.sp + 1), s.setSp (s.sp + 1))) := by
  unfold State.popByte
  by_cases h0 : s.sp = s.cfg.spInit
  · exact .inl ⟨h0, if_pos h0⟩
  · rw [if_neg h0]
    by_cases hm : s.sp + 1 < s.cfg.memSize
    · exact .inr (.inr ⟨h0, hm, by rw [State.memRead_of_lt hm, bind_ok]⟩)
    · exact .inr (.inl ⟨h0, Nat.not_lt.mp hm, by rw [State.memRead_of_ge (Nat.not_lt.mp hm), bind_error]⟩)

/-! ### The end of an instruction -/

@[simp] theorem complete_ok (o : Op) (s t : State) : complete o s (.ok t) = .next t := rfl

@[simp] theorem complete_error (o : Op) (s : State) (k : FaultKind) :
    complete o s (.error k) = .next (s.raiseFault k (some (s.cfg.opcodes.byte o))) := rfl

/-- An instruction's end is its effect, or fault entry on the state it began in, and never a stop. -/
theorem complete_eq_next {o : Op} {s t : State} {e : Except FaultKind State} (h : complete o s e = .next t) :
    e = .ok t ∨ ∃ k, e = .error k ∧ t = s.raiseFault k (some (s.cfg.opcodes.byte o)) := by
  cases e with
  | ok u => exact .inl (by rw [complete_ok] at h; injection h with h; rw [h])
  | error k => exact .inr ⟨k, rfl, by rw [complete_error] at h; injection h with h; exact h.symm⟩

end Sys2Proof.Machine
end

