-- ==== Sys2Proof/Laws/Exec.lean ====
section
/-! SUPPORT. What the shapes shared by several instructions do, and CALL's return address. -/

namespace Sys2Proof.Machine

/-- Everything a two-register ALU operation can do. -/
theorem alu2_cases (o : Op) (f : Byte → Byte → Byte) (a b : Byte) (s : State) :
    (∃ (ha : a.toNat < 8) (hb : b.toNat < 8), alu2 o f a b s =
      .ok ((s.setReg ⟨a.toNat, ha⟩ (f (s.reg ⟨a.toNat, ha⟩) (s.reg ⟨b.toNat, hb⟩))).advance o)) ∨
    ((8 ≤ a.toNat ∨ 8 ≤ b.toNat) ∧ alu2 o f a b s = .error .outOfBounds) := by
  unfold alu2
  rcases regOperands2_cases a b with ⟨ha, hb, h⟩ | ⟨hge, h⟩ <;> rw [h]
  · exact .inl ⟨ha, hb, rfl⟩
  · exact .inr ⟨hge, rfl⟩

/-- Everything a one-register ALU operation can do. -/
theorem alu1_cases (o : Op) (f : Byte → Byte) (a : Byte) (s : State) :
    (∃ ha : a.toNat < 8, alu1 o f a s = .ok ((s.setReg ⟨a.toNat, ha⟩ (f (s.reg ⟨a.toNat, ha⟩))).advance o)) ∨
    (8 ≤ a.toNat ∧ alu1 o f a s = .error .outOfBounds) := by
  unfold alu1
  rcases regOperand_cases a with ⟨ha, h⟩ | ⟨hge, h⟩ <;> rw [h]
  · exact .inl ⟨ha, rfl⟩
  · exact .inr ⟨hge, rfl⟩

/-- Everything a conditional jump can do. -/
theorem branch_cases (o : Op) (taken : Bool) (a : Byte) (s : State) :
    (∃ ha : a.toNat < 8, branch o taken a s =
      .ok (if taken then s.setPc (s.reg ⟨a.toNat, ha⟩).toNat else s.advance o)) ∨
    (8 ≤ a.toNat ∧ branch o taken a s = .error .outOfBounds) := by
  unfold branch
  rcases regOperand_cases a with ⟨ha, h⟩ | ⟨hge, h⟩ <;> rw [h]
  · exact .inl ⟨ha, by cases taken <;> rfl⟩
  · exact .inr ⟨hge, rfl⟩

theorem returnByte_of_le {s : State} (h : s.pc + 2 ≤ 255) : returnByte s = .ok (BitVec.ofNat 8 (s.pc + 2)) :=
  if_neg (Nat.not_lt.mpr h)

theorem returnByte_of_gt {s : State} (h : 255 < s.pc + 2) : returnByte s = .error .outOfBounds := if_pos h

/-! ### What an instruction can do, said once -/

/-- The effect of an instruction that completes, from state to state, with what must hold for it. -/
inductive Effect : Instr → State → State → Prop where
  | hlt {s : State} : Effect .hlt s (s.setStatus .halted)
  | ldi {s : State} {a imm : Byte} (ha : a.toNat < 8) :
      Effect (.ldi a imm) s ((s.setReg ⟨a.toNat, ha⟩ imm).advance .ldi)
  | prn {s : State} {a : Byte} (ha : a.toNat < 8) :
      Effect (.prn a) s ((s.emit (.dec (s.reg ⟨a.toNat, ha⟩))).advance .prn)
  | pra {s : State} {a : Byte} (ha : a.toNat < 8) :
      Effect (.pra a) s ((s.emit (.chr (s.reg ⟨a.toNat, ha⟩))).advance .pra)
  | add {s : State} {a b : Byte} (ha : a.toNat < 8) (hb : b.toNat < 8) : Effect (.add a b) s
      ((s.setReg ⟨a.toNat, ha⟩ (aluAdd (s.reg ⟨a.toNat, ha⟩) (s.reg ⟨b.toNat, hb⟩))).advance .add)
  | mul {s : State} {a b : Byte} (ha : a.toNat < 8) (hb : b.toNat < 8) : Effect (.mul a b) s
      ((s.setReg ⟨a.toNat, ha⟩ (aluMul (s.reg ⟨a.toNat, ha⟩) (s.reg ⟨b.toNat, hb⟩))).advance .mul)
  | and {s : State} {a b : Byte} (ha : a.toNat < 8) (hb : b.toNat < 8) : Effect (.and a b) s
      ((s.setReg ⟨a.toNat, ha⟩ (aluAnd (s.reg ⟨a.toNat, ha⟩) (s.reg ⟨b.toNat, hb⟩))).advance .and)
  | or {s : State} {a b : Byte} (ha : a.toNat < 8) (hb : b.toNat < 8) : Effect (.or a b) s
      ((s.setReg ⟨a.toNat, ha⟩ (aluOr (s.reg ⟨a.toNat, ha⟩) (s.reg ⟨b.toNat, hb⟩))).advance .or)
  | xor {s : State} {a b : Byte} (ha : a.toNat < 8) (hb : b.toNat < 8) : Effect (.xor a b) s
      ((s.setReg ⟨a.toNat, ha⟩ (aluXor (s.reg ⟨a.toNat, ha⟩) (s.reg ⟨b.toNat, hb⟩))).advance .xor)
  | shl {s : State} {a b : Byte} (ha : a.toNat < 8) (hb : b.toNat < 8) : Effect (.shl a b) s
      ((s.setReg ⟨a.toNat, ha⟩ (aluShl (s.reg ⟨a.toNat, ha⟩) (s.reg ⟨b.toNat, hb⟩))).advance .shl)
  | shr {s : State} {a b : Byte} (ha : a.toNat < 8) (hb : b.toNat < 8) : Effect (.shr a b) s
      ((s.setReg ⟨a.toNat, ha⟩ (aluShr (s.reg ⟨a.toNat, ha⟩) (s.reg ⟨b.toNat, hb⟩))).advance .shr)
  | mod {s : State} {a b : Byte} (ha : a.toNat < 8) (hb : b.toNat < 8) (h : s.reg ⟨b.toNat, hb⟩ ≠ 0) :
      Effect (.mod a b) s
        ((s.setReg ⟨a.toNat, ha⟩ (aluMod (s.reg ⟨a.toNat, ha⟩) (s.reg ⟨b.toNat, hb⟩))).advance .mod)
  | cmp {s : State} {a b : Byte} (ha : a.toNat < 8) (hb : b.toNat < 8) : Effect (.cmp a b) s
      ((s.setFl (compareFlags (s.reg ⟨a.toNat, ha⟩) (s.reg ⟨b.toNat, hb⟩))).advance .cmp)
  | not {s : State} {a u : Byte} (ha : a.toNat < 8) :
      Effect (.not a u) s ((s.setReg ⟨a.toNat, ha⟩ (aluNot (s.reg ⟨a.toNat, ha⟩))).advance .not)
  | inc {s : State} {a : Byte} (ha : a.toNat < 8) :
      Effect (.inc a) s ((s.setReg ⟨a.toNat, ha⟩ (aluInc (s.reg ⟨a.toNat, ha⟩))).advance .inc)
  | dec {s : State} {a : Byte} (ha : a.toNat < 8) :
      Effect (.dec a) s ((s.setReg ⟨a.toNat, ha⟩ (aluDec (s.reg ⟨a.toNat, ha⟩))).advance .dec)
  | push {s : State} {a : Byte} (ha : a.toNat < 8) (h0 : s.sp ≠ 0) (hm : s.sp < s.cfg.memSize) : Effect (.push a) s
      (((s.setMem (Memory.write s.mem s.sp (s.reg ⟨a.toNat, ha⟩))).setSp (s.sp - 1)).advance .push)
  | pop {s : State} {a : Byte} (ha : a.toNat < 8) (h0 : s.sp ≠ s.cfg.spInit) (hm : s.sp + 1 < s.cfg.memSize) :
      Effect (.pop a) s
        (((s.setSp (s.sp + 1)).setReg ⟨a.toNat, ha⟩ (Memory.read s.mem (s.sp + 1))).advance .pop)
  | call {s : State} {a : Byte} (ha : a.toNat < 8) (h0 : s.sp ≠ 0) (hret : s.pc + 2 ≤ 255)
      (hm : s.sp < s.cfg.memSize) : Effect (.call a) s
      (((s.setMem (Memory.write s.mem s.sp (BitVec.ofNat 8 (s.pc + 2)))).setSp (s.sp - 1)).setPc
        (s.reg ⟨a.toNat, ha⟩).toNat)
  | ret {s : State} (h0 : s.sp ≠ s.cfg.spInit) (hm : s.sp + 1 < s.cfg.memSize) :
      Effect .ret s ((s.setSp (s.sp + 1)).setPc (Memory.read s.mem (s.sp + 1)).toNat)
  | jmp {s : State} {a : Byte} (ha : a.toNat < 8) : Effect (.jmp a) s (s.setPc (s.reg ⟨a.toNat, ha⟩).toNat)
  | jeqTaken {s : State} {a : Byte} (ha : a.toNat < 8) (h : s.fl.e = true) :
      Effect (.jeq a) s (s.setPc (s.reg ⟨a.toNat, ha⟩).toNat)
  | jeqNot {s : State} {a : Byte} (ha : a.toNat < 8) (h : s.fl.e = false) : Effect (.jeq a) s (s.advance .jeq)
  | jneTaken {s : State} {a : Byte} (ha : a.toNat < 8) (h : s.fl.e = false) :
      Effect (.jne a) s (s.setPc (s.reg ⟨a.toNat, ha⟩).toNat)
  | jneNot {s : State} {a : Byte} (ha : a.toNat < 8) (h : s.fl.e = true) : Effect (.jne a) s (s.advance .jne)
  | st {s : State} {a b : Byte} (ha : a.toNat < 8) (hb : b.toNat < 8)
      (hm : (s.reg ⟨a.toNat, ha⟩).toNat < s.cfg.memSize) : Effect (.st a b) s
      ((s.setMem (Memory.write s.mem (s.reg ⟨a.toNat, ha⟩).toNat (s.reg ⟨b.toNat, hb⟩))).advance .st)
  | ld {s : State} {a b : Byte} (ha : a.toNat < 8) (hb : b.toNat < 8)
      (hm : (s.reg ⟨b.toNat, hb⟩).toNat < s.cfg.memSize) : Effect (.ld a b) s
      ((s.setReg ⟨a.toNat, ha⟩ (Memory.read s.mem (s.reg ⟨b.toNat, hb⟩).toNat)).advance .ld)

/-- The instruction's own faults, with the reason for each (60_exceptions.md rule R200). -/
inductive Raises : Instr → State → FaultKind → Prop where
  | badRegister {i : Instr} {s : State} (h : i.wellFormed = false) : Raises i s .outOfBounds
  | modZero {s : State} {a b : Byte} (ha : a.toNat < 8) (hb : b.toNat < 8) (h : s.reg ⟨b.toNat, hb⟩ = 0) :
      Raises (.mod a b) s .divisionByZero
  | pushOverflow {s : State} {a : Byte} (ha : a.toNat < 8) (h : s.sp = 0) : Raises (.push a) s .stackOverflow
  | callOverflow {s : State} {a : Byte} (ha : a.toNat < 8) (h : s.sp = 0) : Raises (.call a) s .stackOverflow
  | popUnderflow {s : State} {a : Byte} (ha : a.toNat < 8) (h : s.sp = s.cfg.spInit) : Raises (.pop a) s .stackUnderflow
  | retUnderflow {s : State} (h : s.sp = s.cfg.spInit) : Raises .ret s .stackUnderflow
  | returnAddress {s : State} {a : Byte} (ha : a.toNat < 8) (h0 : s.sp ≠ 0) (h : 255 < s.pc + 2) :
      Raises (.call a) s .outOfBounds
  | ldAddress {s : State} {a b : Byte} (ha : a.toNat < 8) (hb : b.toNat < 8)
      (h : s.cfg.memSize ≤ (s.reg ⟨b.toNat, hb⟩).toNat) : Raises (.ld a b) s .outOfBounds
  | stAddress {s : State} {a b : Byte} (ha : a.toNat < 8) (hb : b.toNat < 8)
      (h : s.cfg.memSize ≤ (s.reg ⟨a.toNat, ha⟩).toNat) : Raises (.st a b) s .outOfBounds
  | pushAddress {s : State} {a : Byte} (ha : a.toNat < 8) (h0 : s.sp ≠ 0) (h : s.cfg.memSize ≤ s.sp) :
      Raises (.push a) s .outOfBounds
  | callAddress {s : State} {a : Byte} (ha : a.toNat < 8) (h0 : s.sp ≠ 0) (h : s.cfg.memSize ≤ s.sp) :
      Raises (.call a) s .outOfBounds
  | popAddress {s : State} {a : Byte} (ha : a.toNat < 8) (h0 : s.sp ≠ s.cfg.spInit) (h : s.cfg.memSize ≤ s.sp + 1) :
      Raises (.pop a) s .outOfBounds
  | retAddress {s : State} (h0 : s.sp ≠ s.cfg.spInit) (h : s.cfg.memSize ≤ s.sp + 1) : Raises .ret s .outOfBounds

theorem Instr.wellFormed_one {i : Instr} {a : Byte} (hi : i.regOperands = [a]) (h : 8 ≤ a.toNat) :
    i.wellFormed = false := by
  simp [Instr.wellFormed, hi, h]

theorem Instr.wellFormed_two {i : Instr} {a b : Byte} (hi : i.regOperands = [a, b])
    (h : 8 ≤ a.toNat ∨ 8 ≤ b.toNat) : i.wellFormed = false := by
  rcases h with h | h <;> simp [Instr.wellFormed, hi, h]

/-- Everything an instruction can do: its effect, or one of the faults of rule R200 taken on the state it began in. It never
stops. -/
theorem exec_cases (i : Instr) (s : State) :
    (∃ t, Effect i s t ∧ exec i s = .next t) ∨
    (∃ k, Raises i s k ∧ exec i s = .next (s.raiseFault k (some (s.cfg.opcodes.byte i.op)))) := by
  cases i with
  | hlt => exact .inl ⟨_, .hlt, rfl⟩
  | ldi a imm =>
    rcases regOperand_cases a with ⟨ha, h⟩ | ⟨hge, h⟩ <;> simp only [exec, execLdi, h]
    · exact .inl ⟨_, .ldi ha, rfl⟩
    · exact .inr ⟨_, .badRegister (Instr.wellFormed_one rfl hge), rfl⟩
  | prn a =>
    rcases regOperand_cases a with ⟨ha, h⟩ | ⟨hge, h⟩ <;> simp only [exec, execPrn, h]
    · exact .inl ⟨_, .prn ha, rfl⟩
    · exact .inr ⟨_, .badRegister (Instr.wellFormed_one rfl hge), rfl⟩
  | pra a =>
    rcases regOperand_cases a with ⟨ha, h⟩ | ⟨hge, h⟩ <;> simp only [exec, execPra, h]
    · exact .inl ⟨_, .pra ha, rfl⟩
    · exact .inr ⟨_, .badRegister (Instr.wellFormed_one rfl hge), rfl⟩
  | add a b =>
    rcases alu2_cases .add aluAdd a b s with ⟨ha, hb, h⟩ | ⟨hge, h⟩ <;> simp only [exec, execAdd, h]
    · exact .inl ⟨_, .add ha hb, rfl⟩
    · exact .inr ⟨_, .badRegister (Instr.wellFormed_two rfl hge), rfl⟩
  | mul a b =>
    rcases alu2_cases .mul aluMul a b s with ⟨ha, hb, h⟩ | ⟨hge, h⟩ <;> simp only [exec, execMul, h]
    · exact .inl ⟨_, .mul ha hb, rfl⟩
    · exact .inr ⟨_, .badRegister (Instr.wellFormed_two rfl hge), rfl⟩
  | and a b =>
    rcases alu2_cases .and aluAnd a b s with ⟨ha, hb, h⟩ | ⟨hge, h⟩ <;> simp only [exec, execAnd, h]
    · exact .inl ⟨_, .and ha hb, rfl⟩
    · exact .inr ⟨_, .badRegister (Instr.wellFormed_two rfl hge), rfl⟩
  | or a b =>
    rcases alu2_cases .or aluOr a b s with ⟨ha, hb, h⟩ | ⟨hge, h⟩ <;> simp only [exec, execOr, h]
    · exact .inl ⟨_, .or ha hb, rfl⟩
    · exact .inr ⟨_, .badRegister (Instr.wellFormed_two rfl hge), rfl⟩
  | xor a b =>
    rcases alu2_cases .xor aluXor a b s with ⟨ha, hb, h⟩ | ⟨hge, h⟩ <;> simp only [exec, execXor, h]
    · exact .inl ⟨_, .xor ha hb, rfl⟩
    · exact .inr ⟨_, .badRegister (Instr.wellFormed_two rfl hge), rfl⟩
  | shl a b =>
    rcases alu2_cases .shl aluShl a b s with ⟨ha, hb, h⟩ | ⟨hge, h⟩ <;> simp only [exec, execShl, h]
    · exact .inl ⟨_, .shl ha hb, rfl⟩
    · exact .inr ⟨_, .badRegister (Instr.wellFormed_two rfl hge), rfl⟩
  | shr a b =>
    rcases alu2_cases .shr aluShr a b s with ⟨ha, hb, h⟩ | ⟨hge, h⟩ <;> simp only [exec, execShr, h]
    · exact .inl ⟨_, .shr ha hb, rfl⟩
    · exact .inr ⟨_, .badRegister (Instr.wellFormed_two rfl hge), rfl⟩
  | mod a b =>
    rcases regOperands2_cases a b with ⟨ha, hb, h⟩ | ⟨hge, h⟩ <;> simp only [exec, execMod, h, bind_ok, bind_error]
    · split
      · exact .inr ⟨_, .modZero ha hb ‹_›, rfl⟩
      · simp only [alu2, h]
        exact .inl ⟨_, .mod ha hb ‹_›, rfl⟩
    · exact .inr ⟨_, .badRegister (Instr.wellFormed_two rfl hge), rfl⟩
  | cmp a b =>
    rcases regOperands2_cases a b with ⟨ha, hb, h⟩ | ⟨hge, h⟩ <;> simp only [exec, execCmp, h]
    · exact .inl ⟨_, .cmp ha hb, rfl⟩
    · exact .inr ⟨_, .badRegister (Instr.wellFormed_two rfl hge), rfl⟩
  | not a u =>
    rcases alu1_cases .not aluNot a s with ⟨ha, h⟩ | ⟨hge, h⟩ <;> simp only [exec, execNot, h]
    · exact .inl ⟨_, .not ha, rfl⟩
    · exact .inr ⟨_, .badRegister (Instr.wellFormed_one rfl hge), rfl⟩
  | inc a =>
    rcases alu1_cases .inc aluInc a s with ⟨ha, h⟩ | ⟨hge, h⟩ <;> simp only [exec, execInc, h]
    · exact .inl ⟨_, .inc ha, rfl⟩
    · exact .inr ⟨_, .badRegister (Instr.wellFormed_one rfl hge), rfl⟩
  | dec a =>
    rcases alu1_cases .dec aluDec a s with ⟨ha, h⟩ | ⟨hge, h⟩ <;> simp only [exec, execDec, h]
    · exact .inl ⟨_, .dec ha, rfl⟩
    · exact .inr ⟨_, .badRegister (Instr.wellFormed_one rfl hge), rfl⟩
  | push a =>
    rcases regOperand_cases a with ⟨ha, h⟩ | ⟨hge, h⟩ <;> simp only [exec, execPush, h, bind_ok, bind_error]
    · rcases s.pushByte_cases (s.reg ⟨a.toNat, ha⟩) with ⟨h0, hp⟩ | ⟨h0, hm, hp⟩ | ⟨h0, hm, hp⟩ <;> rw [hp]
      · exact .inr ⟨_, .pushOverflow ha h0, rfl⟩
      · exact .inr ⟨_, .pushAddress ha h0 hm, rfl⟩
      · exact .inl ⟨_, .push ha h0 hm, rfl⟩
    · exact .inr ⟨_, .badRegister (Instr.wellFormed_one rfl hge), rfl⟩
  | pop a =>
    rcases regOperand_cases a with ⟨ha, h⟩ | ⟨hge, h⟩ <;> simp only [exec, execPop, h, bind_ok, bind_error]
    · rcases s.popByte_cases with ⟨h0, hp⟩ | ⟨h0, hm, hp⟩ | ⟨h0, hm, hp⟩ <;> rw [hp]
      · exact .inr ⟨_, .popUnderflow ha h0, rfl⟩
      · exact .inr ⟨_, .popAddress ha h0 hm, rfl⟩
      · exact .inl ⟨_, .pop ha h0 hm, rfl⟩
    · exact .inr ⟨_, .badRegister (Instr.wellFormed_one rfl hge), rfl⟩
  | call a =>
    rcases regOperand_cases a with ⟨ha, h⟩ | ⟨hge, h⟩ <;> simp only [exec, execCall, h, bind_ok, bind_error]
    · split
      · exact .inr ⟨_, .callOverflow ha ‹_›, rfl⟩
      · by_cases hret : s.pc + 2 ≤ 255
        · rw [returnByte_of_le hret, bind_ok]
          rcases s.pushByte_cases (BitVec.ofNat 8 (s.pc + 2)) with ⟨h0, hp⟩ | ⟨h0, hm, hp⟩ | ⟨h0, hm, hp⟩ <;> rw [hp]
          · exact absurd h0 ‹_›
          · exact .inr ⟨_, .callAddress ha h0 hm, rfl⟩
          · exact .inl ⟨_, .call ha h0 hret hm, rfl⟩
        · rw [returnByte_of_gt (Nat.not_le.mp hret)]
          exact .inr ⟨_, .returnAddress ha ‹_› (Nat.not_le.mp hret), rfl⟩
    · exact .inr ⟨_, .badRegister (Instr.wellFormed_one rfl hge), rfl⟩
  | ret =>
    simp only [exec, execRet]
    rcases s.popByte_cases with ⟨h0, hp⟩ | ⟨h0, hm, hp⟩ | ⟨h0, hm, hp⟩ <;> rw [hp]
    · exact .inr ⟨_, .retUnderflow h0, rfl⟩
    · exact .inr ⟨_, .retAddress h0 hm, rfl⟩
    · exact .inl ⟨_, .ret h0 hm, rfl⟩
  | jmp a =>
    rcases regOperand_cases a with ⟨ha, h⟩ | ⟨hge, h⟩ <;> simp only [exec, execJmp, h]
    · exact .inl ⟨_, .jmp ha, rfl⟩
    · exact .inr ⟨_, .badRegister (Instr.wellFormed_one rfl hge), rfl⟩
  | jeq a =>
    rcases branch_cases .jeq s.fl.e a s with ⟨ha, h⟩ | ⟨hge, h⟩ <;> simp only [exec, execJeq, h]
    · rcases he : s.fl.e
      · exact .inl ⟨_, .jeqNot ha he, rfl⟩
      · exact .inl ⟨_, .jeqTaken ha he, rfl⟩
    · exact .inr ⟨_, .badRegister (Instr.wellFormed_one rfl hge), rfl⟩
  | jne a =>
    rcases branch_cases .jne (!s.fl.e) a s with ⟨ha, h⟩ | ⟨hge, h⟩ <;> simp only [exec, execJne, h]
    · rcases he : s.fl.e
      · exact .inl ⟨_, .jneTaken ha he, rfl⟩
      · exact .inl ⟨_, .jneNot ha he, rfl⟩
    · exact .inr ⟨_, .badRegister (Instr.wellFormed_one rfl hge), rfl⟩
  | st a b =>
    rcases regOperands2_cases a b with ⟨ha, hb, h⟩ | ⟨hge, h⟩ <;> simp only [exec, execSt, h, bind_ok, bind_error]
    · by_cases hm : (s.reg ⟨a.toNat, ha⟩).toNat < s.cfg.memSize
      · exact .inl ⟨_, .st ha hb hm, by rw [addressOf, State.memWrite_of_lt _ hm]; rfl⟩
      · have hm := Nat.not_lt.mp hm
        exact .inr ⟨_, .stAddress ha hb hm, by rw [addressOf, State.memWrite_of_ge _ hm]; rfl⟩
    · exact .inr ⟨_, .badRegister (Instr.wellFormed_two rfl hge), rfl⟩
  | ld a b =>
    rcases regOperands2_cases a b with ⟨ha, hb, h⟩ | ⟨hge, h⟩ <;> simp only [exec, execLd, h, bind_ok, bind_error]
    · by_cases hm : (s.reg ⟨b.toNat, hb⟩).toNat < s.cfg.memSize
      · exact .inl ⟨_, .ld ha hb hm, by rw [addressOf, State.memRead_of_lt hm]; rfl⟩
      · have hm := Nat.not_lt.mp hm
        exact .inr ⟨_, .ldAddress ha hb hm, by rw [addressOf, State.memRead_of_ge hm]; rfl⟩
    · exact .inr ⟨_, .badRegister (Instr.wellFormed_two rfl hge), rfl⟩

/-- The inversion of `exec`: what is so of its next state. -/
theorem exec_eq_next {i : Instr} {s t : State} (h : exec i s = .next t) :
    Effect i s t ∨ ∃ k, Raises i s k ∧ t = s.raiseFault k (some (s.cfg.opcodes.byte i.op)) := by
  rcases exec_cases i s with ⟨u, hu, h'⟩ | ⟨k, hk, h'⟩ <;> rw [h'] at h <;> injection h with h <;> subst h
  · exact .inl hu
  · exact .inr ⟨k, hk, rfl⟩

/-- No instruction raises ProgramTooLarge. -/
theorem Raises.ne_programTooLarge {i : Instr} {s : State} {k : FaultKind} (h : Raises i s k) :
    k ≠ .programTooLarge := by cases h <;> simp

/-- A well-formed instruction's fault has a reason of its own, and an effect and a fault exclude each other. -/
theorem Effect.not_raises {i : Instr} {s t : State} {k : FaultKind} (h : Effect i s t) : ¬ Raises i s k := by
  intro hr
  cases hr <;> cases h <;>
    simp_all [Instr.wellFormed, Instr.regOperands] <;> omega

theorem Effect.unique {i : Instr} {s t u : State} (ht : Effect i s t) (hu : Effect i s u) : t = u := by
  cases ht <;> cases hu <;> simp_all

theorem Raises.unique {i : Instr} {s : State} {k l : FaultKind} (hk : Raises i s k) (hl : Raises i s l) : k = l := by
  cases hk <;> cases hl <;> simp_all [Instr.wellFormed, Instr.regOperands]

/-- An instruction whose effect's conditions hold completes with it. -/
theorem exec_of_effect {i : Instr} {s t : State} (h : Effect i s t) : exec i s = .next t := by
  rcases exec_cases i s with ⟨u, hu, he⟩ | ⟨k, hk, _⟩
  · rw [he, hu.unique h]
  · exact absurd hk h.not_raises

/-- An instruction one of whose faults' conditions hold raises it. -/
theorem exec_of_raises {i : Instr} {s : State} {k : FaultKind} (h : Raises i s k) :
    exec i s = .next (s.raiseFault k (some (s.cfg.opcodes.byte i.op))) := by
  rcases exec_cases i s with ⟨u, hu, _⟩ | ⟨l, hl, he⟩
  · exact absurd h hu.not_raises
  · rw [he, hl.unique h]

/-- An instruction's faults depend on the parameters, PC, SP and the registers it names only. -/
theorem Raises.congr {i : Instr} {s u : State} {k : FaultKind} (h : Raises i s k) (hc : u.cfg = s.cfg)
    (hpc : u.pc = s.pc) (hsp : u.sp = s.sp)
    (hreg : ∀ x ∈ i.regOperands, ∀ hx : x.toNat < 8, u.reg ⟨x.toNat, hx⟩ = s.reg ⟨x.toNat, hx⟩) : Raises i u k := by
  cases h with
  | badRegister h => exact .badRegister h
  | modZero ha hb h => exact .modZero ha hb ((hreg _ (by simp [Instr.regOperands]) hb).trans h)
  | pushOverflow ha h => exact .pushOverflow ha (hsp.trans h)
  | callOverflow ha h => exact .callOverflow ha (hsp.trans h)
  | popUnderflow ha h => exact .popUnderflow ha (by rw [hsp, hc, h])
  | retUnderflow h => exact .retUnderflow (by rw [hsp, hc, h])
  | returnAddress ha h0 h => exact .returnAddress ha (by rwa [hsp]) (by rwa [hpc])
  | ldAddress ha hb h => exact .ldAddress ha hb (by rwa [hc, hreg _ (by simp [Instr.regOperands]) hb])
  | stAddress ha hb h => exact .stAddress ha hb (by rwa [hc, hreg _ (by simp [Instr.regOperands]) ha])
  | pushAddress ha h0 h => exact .pushAddress ha (by rwa [hsp]) (by rwa [hsp, hc])
  | callAddress ha h0 h => exact .callAddress ha (by rwa [hsp]) (by rwa [hsp, hc])
  | popAddress ha h0 h => exact .popAddress ha (by rwa [hsp, hc]) (by rwa [hsp, hc])
  | retAddress h0 h => exact .retAddress (by rwa [hsp, hc]) (by rwa [hsp, hc])

end Sys2Proof.Machine
end

