-- ==== Sys2Proof/Laws/PerInstr.lean ====
section
/-! SUPPORT. What holds of every instruction as syntax, one lemma per constructor. -/

namespace Sys2Proof.Laws

/-- Rules R70, R72 and R74: distinct opcode bytes give an instruction's operation back from its opcode byte, the operands are
as many as the table says, and taking them back rebuilds the instruction and leaves the rest. -/
def EncodeShape.Statement (i : Instr) : Prop :=
  (∀ {m : OpcodeMap}, m.wf → lookupOp m (m.byte i.op) = some i.op) ∧ i.operands.length = operandCount i.op ∧
    ∀ (opc : Byte) (rest : List Byte), takeOperands i.op opc (operandCount i.op) (i.operands ++ rest) = .instr i rest

theorem EncodeShape.hlt : EncodeShape.Statement (.hlt) :=
  ⟨fun h => lookupOp_byte h _, rfl, fun _ _ => rfl⟩

theorem EncodeShape.ldi (a b : Byte) : EncodeShape.Statement (.ldi a b) :=
  ⟨fun h => lookupOp_byte h _, rfl, fun _ _ => rfl⟩

theorem EncodeShape.prn (a : Byte) : EncodeShape.Statement (.prn a) :=
  ⟨fun h => lookupOp_byte h _, rfl, fun _ _ => rfl⟩

theorem EncodeShape.pra (a : Byte) : EncodeShape.Statement (.pra a) :=
  ⟨fun h => lookupOp_byte h _, rfl, fun _ _ => rfl⟩

theorem EncodeShape.mul (a b : Byte) : EncodeShape.Statement (.mul a b) :=
  ⟨fun h => lookupOp_byte h _, rfl, fun _ _ => rfl⟩

theorem EncodeShape.add (a b : Byte) : EncodeShape.Statement (.add a b) :=
  ⟨fun h => lookupOp_byte h _, rfl, fun _ _ => rfl⟩

theorem EncodeShape.and (a b : Byte) : EncodeShape.Statement (.and a b) :=
  ⟨fun h => lookupOp_byte h _, rfl, fun _ _ => rfl⟩

theorem EncodeShape.or (a b : Byte) : EncodeShape.Statement (.or a b) :=
  ⟨fun h => lookupOp_byte h _, rfl, fun _ _ => rfl⟩

theorem EncodeShape.xor (a b : Byte) : EncodeShape.Statement (.xor a b) :=
  ⟨fun h => lookupOp_byte h _, rfl, fun _ _ => rfl⟩

theorem EncodeShape.shl (a b : Byte) : EncodeShape.Statement (.shl a b) :=
  ⟨fun h => lookupOp_byte h _, rfl, fun _ _ => rfl⟩

theorem EncodeShape.shr (a b : Byte) : EncodeShape.Statement (.shr a b) :=
  ⟨fun h => lookupOp_byte h _, rfl, fun _ _ => rfl⟩

theorem EncodeShape.mod (a b : Byte) : EncodeShape.Statement (.mod a b) :=
  ⟨fun h => lookupOp_byte h _, rfl, fun _ _ => rfl⟩

theorem EncodeShape.cmp (a b : Byte) : EncodeShape.Statement (.cmp a b) :=
  ⟨fun h => lookupOp_byte h _, rfl, fun _ _ => rfl⟩

theorem EncodeShape.not (a b : Byte) : EncodeShape.Statement (.not a b) :=
  ⟨fun h => lookupOp_byte h _, rfl, fun _ _ => rfl⟩

theorem EncodeShape.inc (a : Byte) : EncodeShape.Statement (.inc a) :=
  ⟨fun h => lookupOp_byte h _, rfl, fun _ _ => rfl⟩

theorem EncodeShape.dec (a : Byte) : EncodeShape.Statement (.dec a) :=
  ⟨fun h => lookupOp_byte h _, rfl, fun _ _ => rfl⟩

theorem EncodeShape.push (a : Byte) : EncodeShape.Statement (.push a) :=
  ⟨fun h => lookupOp_byte h _, rfl, fun _ _ => rfl⟩

theorem EncodeShape.pop (a : Byte) : EncodeShape.Statement (.pop a) :=
  ⟨fun h => lookupOp_byte h _, rfl, fun _ _ => rfl⟩

theorem EncodeShape.call (a : Byte) : EncodeShape.Statement (.call a) :=
  ⟨fun h => lookupOp_byte h _, rfl, fun _ _ => rfl⟩

theorem EncodeShape.ret : EncodeShape.Statement (.ret) :=
  ⟨fun h => lookupOp_byte h _, rfl, fun _ _ => rfl⟩

theorem EncodeShape.jmp (a : Byte) : EncodeShape.Statement (.jmp a) :=
  ⟨fun h => lookupOp_byte h _, rfl, fun _ _ => rfl⟩

theorem EncodeShape.jeq (a : Byte) : EncodeShape.Statement (.jeq a) :=
  ⟨fun h => lookupOp_byte h _, rfl, fun _ _ => rfl⟩

theorem EncodeShape.jne (a : Byte) : EncodeShape.Statement (.jne a) :=
  ⟨fun h => lookupOp_byte h _, rfl, fun _ _ => rfl⟩

theorem EncodeShape.st (a b : Byte) : EncodeShape.Statement (.st a b) :=
  ⟨fun h => lookupOp_byte h _, rfl, fun _ _ => rfl⟩

theorem EncodeShape.ld (a b : Byte) : EncodeShape.Statement (.ld a b) :=
  ⟨fun h => lookupOp_byte h _, rfl, fun _ _ => rfl⟩

end Sys2Proof.Laws
end

