-- ==== Sys2Proof/Laws/Step.lean ====
section
/-! SUPPORT. What a step can do, and what fetching reads. -/

namespace Sys2Proof.Machine

theorem step_of_running {s : State} (h : s.status = .running) :
    step s = match s.fetch with
      | .ok i => exec i s
      | .error (k, opc) => .next (s.raiseFault k opc) := by
  cases s; cases h; rfl

/-- Everything a step that answers a next state can be, from Running only: a fetch fault, or one instruction. -/
theorem step_cases {s t : State} (h : step s = .next t) : s.status = .running ∧
    ((∃ k opc, s.fetch = .error (k, opc) ∧ t = s.raiseFault k opc) ∨
      ∃ i, s.fetch = .ok i ∧ exec i s = .next t) := by
  unfold step at h
  split at h
  · refine ⟨‹_›, ?_⟩
    split at h
    · exact .inr ⟨_, ‹_›, h⟩
    · injection h with h; exact .inl ⟨_, _, ‹_›, h.symm⟩
  all_goals cases h

/-- The bytes fetched from an address are memory's, as far as memory goes. -/
theorem State.getElem_bytesFrom (s : State) : ∀ (n a k : Nat),
    (s.bytesFrom n a)[k]? = if k < n ∧ a + k < s.cfg.memSize then some (Memory.read s.mem (a + k)) else none := by
  intro n
  induction n with
  | zero => intro a k; simp [State.bytesFrom]
  | succ n ih =>
    intro a k
    unfold State.bytesFrom
    split
    · cases k with
      | zero => simp [*]
      | succ k =>
        rw [List.getElem?_cons_succ, ih]
        have : a + 1 + k = a + (k + 1) := by omega
        simp only [this, Nat.add_lt_add_iff_right]
    · rw [if_neg (by omega)]; rfl

/-- Fetching depends on memory, its size and the PC only. -/
theorem State.bytesFrom_congr {s t : State} (hm : s.mem = t.mem) (hc : s.cfg = t.cfg) (n : Nat) :
    ∀ a, s.bytesFrom n a = t.bytesFrom n a := by
  induction n with
  | zero => intro a; rfl
  | succ n ih => intro a; unfold State.bytesFrom; rw [hm, hc, ih]

theorem State.length_bytesFrom (s : State) : ∀ n a : Nat,
    (s.bytesFrom n a).length = min n (s.cfg.memSize - a) := by
  intro n
  induction n with
  | zero => intro a; simp [State.bytesFrom]
  | succ n ih =>
    intro a
    unfold State.bytesFrom
    split
    · rw [List.length_cons, ih]; omega
    · simp; omega

theorem State.fetchWindow_of_ge {s : State} (h : s.cfg.memSize ≤ s.pc) : s.fetchWindow = [] := by
  unfold State.fetchWindow State.bytesFrom
  rw [if_neg (by omega)]

theorem State.fetchWindow_of_lt {s : State} (h : s.pc < s.cfg.memSize) :
    s.fetchWindow = Memory.read s.mem s.pc :: s.bytesFrom 2 (s.pc + 1) := by
  unfold State.fetchWindow
  rw [State.bytesFrom, if_pos h]

/-- Everything a fetch can be, in the order of 60_exceptions.md rule R202; an instruction that is fetched lies inside
memory. -/
theorem State.fetch_cases (s : State) :
    (s.cfg.memSize ≤ s.pc ∧ s.fetch = .error (.outOfBounds, none)) ∨
    (s.pc < s.cfg.memSize ∧ (∀ o, s.cfg.opcodes.byte o ≠ Memory.read s.mem s.pc) ∧
      s.fetch = .error (.unknownOpcode, some (Memory.read s.mem s.pc))) ∨
    (∃ o, s.pc < s.cfg.memSize ∧ s.cfg.opcodes.byte o = Memory.read s.mem s.pc ∧ s.cfg.memSize ≤ s.pc + operandCount o ∧
      s.fetch = .error (.outOfBounds, some (s.cfg.opcodes.byte o))) ∨
    (∃ i, s.pc + opLength i.op ≤ s.cfg.memSize ∧ s.cfg.opcodes.byte i.op = Memory.read s.mem s.pc ∧ s.fetch = .ok i) := by
  rcases Nat.lt_or_ge s.pc s.cfg.memSize with h | h
  · right
    rcases hl : lookupOp s.cfg.opcodes (Memory.read s.mem s.pc) with _ | o
    · exact .inl ⟨h, lookupOp_eq_none.mp hl, by
        rw [State.fetch, State.fetchWindow_of_lt h, decode_of_unknown _ hl]⟩
    · right
      have ho := byte_of_lookupOp hl
      have h2 : operandCount o ≤ 2 := by cases o <;> decide
      rcases takeOperands_cases o (Memory.read s.mem s.pc) (s.bytesFrom 2 (s.pc + 1)) with
        ⟨hlen, ht⟩ | ⟨hlen, i, rfl, _, ht⟩ <;> rw [State.length_bytesFrom] at hlen
      · exact .inl ⟨o, h, ho, by omega, by
          rw [State.fetch, State.fetchWindow_of_lt h, decode_of_known _ hl, ht, ho]⟩
      · exact .inr ⟨i, by unfold opLength; omega, ho, by
          rw [State.fetch, State.fetchWindow_of_lt h, decode_of_known _ hl, ht]⟩
  · exact .inl ⟨h, by rw [State.fetch, State.fetchWindow_of_ge h]; rfl⟩

end Sys2Proof.Machine
end

