-- ==== Sys2Proof/Tests/Slice0.lean ====
section
/-! SUPPORT. The model's own tests: words written out from the encodings of spec/30_encoding.md, the vectors of
spec/95_test_vectors.md (their ids in the docstrings), the checks of WellFormed, and a witness for every obligation
that has hypotheses. -/

open Sys2Proof Sys2Proof.Machine

namespace Sys2Proof.Tests

/-- The decoder under rule R71's opcode map, which the words below are written with. -/
abbrev decode : List Byte → Decoded := Sys2Proof.decode defaultOpcodeMap

/-- The encoder under rule R71's opcode map. -/
abbrev encode : Instr → List Byte := Sys2Proof.encode defaultOpcodeMap

/-! ### Decoding, each word written bit by bit from rule R71 -/

theorem test_decode_cycle_and_data :
    decode [0b00000001] = .instr .hlt [] ∧
    decode [0b10000010, 0b00000000, 0b00000101] = .instr (.ldi 0 5) [] ∧
    decode [0b10000011, 0b00000000, 0b00000001] = .instr (.ld 0 1) [] ∧
    decode [0b10000100, 0b00000011, 0b00000010] = .instr (.st 3 2) [] := by decide

theorem test_decode_output :
    decode [0b01000111, 0b00000000] = .instr (.prn 0) [] ∧
    decode [0b01001000, 0b00000000] = .instr (.pra 0) [] := by decide

theorem test_decode_alu_two_registers :
    decode [0b10100000, 0, 1] = .instr (.add 0 1) [] ∧ decode [0b10100010, 0, 1] = .instr (.mul 0 1) [] ∧
    decode [0b10100100, 0, 1] = .instr (.mod 0 1) [] ∧ decode [0b10101000, 0, 1] = .instr (.and 0 1) [] ∧
    decode [0b10101010, 0, 1] = .instr (.or 0 1) [] ∧ decode [0b10101011, 0, 1] = .instr (.xor 0 1) [] ∧
    decode [0b10101100, 0, 1] = .instr (.shl 0 1) [] ∧ decode [0b10101101, 0, 1] = .instr (.shr 0 1) [] ∧
    decode [0b10100111, 0, 1] = .instr (.cmp 0 1) [] := by decide

theorem test_decode_alu_one_register :
    decode [0b01101001, 0, 0] = .instr (.not 0 0) [] ∧ decode [0b01100101, 2] = .instr (.inc 2) [] ∧
    decode [0b01100110, 0] = .instr (.dec 0) [] := by decide

theorem test_decode_stack :
    decode [0b01000101, 0] = .instr (.push 0) [] ∧ decode [0b01000110, 2] = .instr (.pop 2) [] := by decide

theorem test_decode_control :
    decode [0b01010000, 1] = .instr (.call 1) [] ∧ decode [0b00010001] = .instr .ret [] ∧
    decode [0b01010100, 2] = .instr (.jmp 2) [] ∧ decode [0b01010101, 2] = .instr (.jeq 2) [] ∧
    decode [0b01010110, 2] = .instr (.jne 2) [] := by decide

/-- Rule R77 and vectors X2, X3; rules R74 and R102 for a missing operand. -/
theorem test_decode_rejects_by_name :
    decode [0x00] = .rejected (.unknownOpcode 0) ∧ decode [0xA1, 0, 0] = .rejected (.unknownOpcode 0xA1) ∧
    decode [0x82, 0] = .rejected (.missingOperand 0x82) ∧ decode [] = .rejected .noByte := by decide

/-- The numbering of spec/opcode_table.json: the second byte is bits 15:8, and bits the row has not are 0. -/
theorem test_decodeTableWord :
    decodeTableWord 24 0x0203A0 = some (.add 3 2) ∧ decodeTableWord 8 0x82 = some (.ldi 0 0) ∧
    decodeTableWord 8 0xFFFF01 = some .hlt ∧ decodeTableWord 8 0xA1 = none := by decide

/-! ### WellFormed: an ill-formed term for each check -/

theorem test_wellFormed_refuses_op_a : (Instr.add 8 0).wellFormed = false := by decide

theorem test_wellFormed_refuses_op_b : (Instr.ld 0 9).wellFormed = false := by decide

theorem test_wellFormed_refuses_one_operand : (Instr.prn 255).wellFormed = false := by decide

/-- Vectors X7 and X8: an immediate and an unused byte are not checked. -/
theorem test_wellFormed_takes_immediates :
    (Instr.ldi 7 0xC8).wellFormed = true ∧ (Instr.not 0 0xC8).wellFormed = true := by decide

/-! ### Single steps, from spec/95_test_vectors.md -/

/-- A Running machine with r0, r1 and r2 given, everything else as after reset. -/
def machine (r0 r1 r2 : Byte) : State :=
  { State.reset with regs := #v[r0, r1, r2, 0, 0, 0, 0, 0xF4], status := .running }

/-- What an instruction leaves, read by `f`. -/
def after {α : Type} (i : Instr) (s : State) (f : State → α) : Option α :=
  match exec i s with
  | .next t => some (f t)
  | _ => none

/-- What a step leaves, read by `f`. -/
def afterStep {α : Type} (s : State) (f : State → α) : Option α :=
  match step s with
  | .next t => some (f t)
  | _ => none

/-- M1 and M2. -/
theorem test_ldi : after (.ldi 0 5) (machine 0 0 0) (fun t => (t.regs[0], t.pc)) = some (5, 3) ∧
    after (.ldi 7 0) (machine 0 0 0) (fun t => (t.regs[7], t.sp)) = some (0, 0xF4) := by decide

/-- M3 and M5. -/
theorem test_ld :
    after (.ld 0 1) { machine 0 0x80 0 with mem := [(0x80, 9)] } (fun t => (t.regs[0], t.pc)) = some (9, 3) ∧
    after (.ld 1 1) { machine 0 0x80 0 with mem := [(0x80, 0x33)] } (fun t => t.regs[1]) = some 0x33 := by decide

/-- M8: MEM_SIZE = 128. -/
theorem test_ld_out_of_bounds :
    after (.ld 0 1) { machine 0 0x80 0 with cfg := { defaultConfig with memSize := 128, spInit := 100 } } (fun t =>
      (t.status, t.faultRecord)) =
      some (.faulted, some { kind := .outOfBounds, pc := some 0, opcode := some 0x83 }) := by decide

/-- M6, with the registers of the example moved to r0 and r1, and M7. -/
theorem test_st : after (.st 0 1) (machine 0x80 9 0) (fun t => (t.mem, t.pc)) = some ([(0x80, 9)], 3) ∧
    after (.st 2 2) (machine 0 0 0x40) (fun t => t.mem) = some [(0x40, 0x40)] := by decide

/-- Writing 0 over a byte leaves the canonical form (rule R56). -/
theorem test_st_zero :
    after (.st 0 1) { machine 0x80 0 0 with mem := [(3, 1), (0x80, 9), (0x90, 2)] } (fun t => t.mem) =
      some [(3, 1), (0x90, 2)] := by decide

/-- O2. -/
theorem test_prn : after (.prn 0) (machine 255 0 0) (fun t => (t.output, t.pc)) = some ([.dec 255], 2) := by decide

/-- O3, after an earlier event. -/
theorem test_pra : after (.pra 0) { machine 65 0 0 with output := [.dec 1] } (fun t => t.output) =
    some [.dec 1, .chr 65] := by decide

/-- A2 and A3. -/
theorem test_add : after (.add 0 1) (machine 255 1 0) (fun t => (t.regs[0], t.pc)) = some (0, 3) ∧
    after (.add 0 1) (machine 200 100 0) (fun t => t.regs[0]) = some 44 := by decide

/-- A4 and A6. -/
theorem test_mul : after (.mul 0 1) (machine 12 11 0) (fun t => t.regs[0]) = some 132 ∧
    after (.mul 0 1) (machine 255 255 0) (fun t => t.regs[0]) = some 1 := by decide

/-- A8. -/
theorem test_mod : after (.mod 0 1) (machine 17 5 0) (fun t => (t.regs[0], t.regs[1])) = some (2, 5) := by decide

/-- A12. -/
theorem test_mod_by_zero : after (.mod 0 1) (machine 5 0 0) (fun t => (t.regs[0], t.pc, t.status, t.faultRecord)) =
    some (5, 0, .faulted, some { kind := .divisionByZero, pc := some 0, opcode := some 0xA4 }) := by decide

/-- A13. -/
theorem test_and : after (.and 0 1) (machine 0xCC 0xAA 0) (fun t => t.regs[0]) = some 0x88 := by decide

/-- A15. -/
theorem test_or : after (.or 0 1) (machine 0xCC 0xAA 0) (fun t => t.regs[0]) = some 0xEE := by decide

/-- A16. -/
theorem test_xor : after (.xor 0 1) (machine 0xCC 0xAA 0) (fun t => t.regs[0]) = some 0x66 := by decide

/-- A20 and A21. -/
theorem test_shl : after (.shl 0 1) (machine 0x81 1 0) (fun t => t.regs[0]) = some 2 ∧
    after (.shl 0 1) (machine 1 8 0) (fun t => t.regs[0]) = some 0 := by decide

/-- A25 and A27. -/
theorem test_shr : after (.shr 0 1) (machine 0x80 1 0) (fun t => t.regs[0]) = some 0x40 ∧
    after (.shr 0 1) (machine 0xFF 8 0) (fun t => t.regs[0]) = some 0 := by decide

/-- U3 and X8. -/
theorem test_not : after (.not 0 0) (machine 0x82 0 0) (fun t => (t.regs[0], t.pc)) = some (0x7D, 3) ∧
    after (.not 0 0xC8) (machine 0 0 0) (fun t => t.regs[0]) = some 255 := by decide

/-- U5. -/
theorem test_inc : after (.inc 0) (machine 255 0 0) (fun t => (t.regs[0], t.pc)) = some (0, 2) := by decide

/-- U7. -/
theorem test_dec : after (.dec 0) (machine 0 0 0) (fun t => (t.regs[0], t.fl.e)) = some (255, false) := by decide

/-- A32 and A34. -/
theorem test_cmp :
    after (.cmp 0 1) (machine 255 1 0) (fun t => (t.fl, t.pc)) = some ({ e := false, g := true, l := false }, 3) ∧
    after (.cmp 0 1) { machine 5 5 0 with fl := { e := false, g := false, l := true } } (fun t => t.fl) =
      some { e := true, g := false, l := false } := by decide

/-- The host's byte view of FL (rule R29). -/
theorem test_flags_byte : Flags.toByte { e := true, g := false, l := false } = 1 ∧
    Flags.toByte { e := false, g := true, l := false } = 2 ∧
    Flags.toByte { e := false, g := false, l := true } = 4 := by decide

/-- K1 and K2. -/
theorem test_push : after (.push 0) (machine 9 0 0) (fun t => (t.mem, t.sp, t.pc)) = some ([(0xF4, 9)], 0xF3, 2) ∧
    after (.push 0) { machine 7 0 0 with sp := 1 } (fun t => (t.mem, t.sp)) = some ([(1, 7)], 0) := by decide

/-- Rules R7 and R170 with an SP_INIT above 255 (log entry 29). -/
theorem test_push_above_255 :
    after (.push 0) { machine 9 0 0 with cfg := { defaultConfig with memSize := 512, spInit := 300 }, sp := 300 }
      (fun t => (t.mem, t.sp)) = some ([(300, 9)], 299) := by decide

/-- K3. -/
theorem test_push_overflow : after (.push 0) { machine 7 0 0 with sp := 0 } (fun t => (t.mem, t.sp, t.faultRecord)) =
    some ([], 0, some { kind := .stackOverflow, pc := some 0, opcode := some 0x45 }) := by decide

/-- K4. -/
theorem test_pop : after (.pop 2) { machine 0 0 0 with sp := 0xF3, mem := [(0xF4, 9)] } (fun t =>
    (t.regs[2], t.sp, t.mem)) = some (9, 0xF4, [(0xF4, 9)]) := by decide

/-- K5. -/
theorem test_pop_underflow : after (.pop 2) (machine 0 0 6) (fun t => (t.regs[2], t.sp, t.faultRecord)) =
    some (6, 0xF4, some { kind := .stackUnderflow, pc := some 0, opcode := some 0x46 }) := by decide

/-- T1 and T2. -/
theorem test_call :
    after (.call 1) { machine 0 11 0 with pc := 6 } (fun t => (t.mem, t.sp, t.pc)) = some ([(0xF4, 8)], 0xF3, 11) ∧
    after (.call 1) { machine 0 0 0 with pc := 253 } (fun t => (t.mem, t.pc)) = some ([(0xF4, 255)], 0) := by decide

/-- T3 and T4. -/
theorem test_call_faults :
    after (.call 1) { machine 0 0 0 with pc := 254 } (fun t => (t.mem, t.faultRecord)) =
      some ([], some { kind := .outOfBounds, pc := some 254, opcode := some 0x50 }) ∧
    after (.call 1) { machine 0 0 0 with pc := 6, sp := 0 } (fun t => t.faultRecord) =
      some (some { kind := .stackOverflow, pc := some 6, opcode := some 0x50 }) := by decide

/-- T5. -/
theorem test_ret : after .ret { machine 0 0 0 with sp := 0xF3, mem := [(0xF4, 8)] } (fun t => (t.sp, t.pc)) =
    some (0xF4, 8) := by decide

/-- T6. -/
theorem test_ret_underflow : after .ret (machine 0 0 0) (fun t => t.faultRecord) =
    some (some { kind := .stackUnderflow, pc := some 0, opcode := some 0x11 }) := by decide

/-- T7. -/
theorem test_jmp : after (.jmp 2) { machine 0 0 0 with pc := 30 } (fun t => t.pc) = some 0 := by decide

/-- T8 and T9. -/
theorem test_jeq :
    after (.jeq 2) { machine 0 0 20 with pc := 30, fl := { e := true, g := false, l := false } } (fun t => t.pc) =
      some 20 ∧
    after (.jeq 2) { machine 0 0 20 with pc := 30 } (fun t => t.pc) = some 32 := by decide

/-- T9 and T10. -/
theorem test_jne :
    after (.jne 2) { machine 0 0 20 with pc := 30 } (fun t => t.pc) = some 20 ∧
    after (.jne 2) { machine 0 0 20 with pc := 30, fl := { e := true, g := false, l := false } } (fun t => t.pc) =
      some 32 := by decide

/-- X12. -/
theorem test_hlt : after .hlt { machine 0 0 0 with pc := 5 } (fun t => (t.status, t.pc)) = some (.halted, 5) := by
  decide

/-- X1, X13 and X14: the order of the fetch faults. -/
theorem test_fetch_faults :
    afterStep { machine 0 0 0 with pc := 256 } (fun t => t.faultRecord) =
      some (some { kind := .outOfBounds, pc := some 256, opcode := none }) ∧
    afterStep { machine 0 0 0 with pc := 255, mem := [(255, 0xA4)] } (fun t => t.faultRecord) =
      some (some { kind := .outOfBounds, pc := some 255, opcode := some 0xA4 }) ∧
    afterStep { machine 0 0 0 with pc := 255, mem := [(255, 0xA1)] } (fun t => t.faultRecord) =
      some (some { kind := .unknownOpcode, pc := some 255, opcode := some 0xA1 }) := by decide

/-- X5: a two-byte instruction may end at the last address. -/
theorem test_step_at_end : afterStep { machine 1 0 0 with pc := 254, mem := [(254, 0x47)] } (fun t =>
    (t.output, t.pc)) = some ([.dec 1], 256) := by decide

/-- X9: the register check comes before DivisionByZero. -/
theorem test_bad_register_first : after (.mod 9 1) (machine 0 0 0) (fun t => t.faultRecord) =
    some (some { kind := .outOfBounds, pc := some 0, opcode := some 0xA4 }) := by decide

/-- X10 with MEM_SIZE 2, and a load that fits. -/
theorem test_load :
    ((State.construct { defaultConfig with memSize := 2, spInit := 1 }).load [1, 2, 3]).map (fun t => (t.mem, t.status)) =
      some ([], .faulted) ∧
    (State.reset.load [0x82, 0, 5]).map (fun t => (t.mem, t.loaded)) = some ([(0, 0x82), (2, 5)], true) := by decide

/-- X11: with nothing loaded, the run starts and then faults at address 0. -/
theorem test_run_of_nothing : (State.reset.run 1).map Prod.snd = some (some (.faulted .unknownOpcode)) := by decide

/-- Rules R100 and R105: no step before the host's `run()`, and the first one after it executes an instruction. -/
theorem test_step_before_run : afterStep State.reset (fun t => t.status) = none ∧
    ((State.reset.load [0x65, 0]).bind State.startRun).bind (fun s => afterStep s fun t => t.regs[0]) = some 1 := by
  decide

/-- The host's question: the row's bits, placed in the reset state, are the first instruction to run. -/
theorem test_withFetchWord : afterStep (State.reset.withFetchWord 24 0x050082) (fun t => (t.regs[0], t.pc)) =
    some (5, 3) := by decide

/-! ### Witnesses: concrete states and operands that meet the obligations' hypotheses -/

/-- A map of distinct values other than rule R71's: HLT and RET exchanged. -/
def otherMap : OpcodeMap := { defaultOpcodeMap with hlt := 0x11, ret := 0x01 }

/-- The default map and another one have distinct values, and the machine runs under its own. -/
theorem witness_OpcodeMap_wf : defaultOpcodeMap.wf ∧ otherMap.wf ∧ State.reset.cfg.opcodes.wf ∧
    Sys2Proof.decode otherMap [0x11] = .instr .hlt [] := by decide

/-- The same byte halts one machine and returns on the other. -/
theorem test_step_under_another_map :
    afterStep { machine 0 0 0 with mem := [(0, 0x11)] } (fun t => t.status) = some .faulted ∧
    afterStep { machine 0 0 0 with mem := [(0, 0x11)], cfg := { defaultConfig with opcodes := otherMap } }
      (fun t => t.status) = some .halted := by decide

theorem witness_DecodedBytesAreTheEncoding : decode [0xA0, 7, 255, 9] = .instr (.add 7 255) [9] := by decide

theorem witness_StepRunsTheDecodedInstruction :
    (machine 0 0 0).status = .running ∧
    decode ({ machine 0 0 0 with mem := [(0, 0x82), (2, 5)] } : State).fetchWindow = .instr (.ldi 0 5) [] := by decide

/-- The last instruction that fits: three bytes at 253. -/
theorem witness_StepRunsTheInstructionInMemory :
    let s : State := { machine 0 0 0 with pc := 253, mem := [(253, 0xA0), (254, 7), (255, 1)] }
    s.status = .running ∧ s.pc + (encode (.add 7 1)).length ≤ s.cfg.memSize ∧
    ∀ (k : Nat) (h : k < (encode (.add 7 1)).length), Memory.read s.mem (s.pc + k) = (encode (.add 7 1))[k] := by
  decide

/-- The first address outside memory, the last inside it, and a three-byte instruction one byte too high. -/
theorem witness_FetchFaultsInOrder :
    let s1 : State := { machine 0 0 0 with pc := 256 }
    let s2 : State := { machine 0 0 0 with pc := 255 }
    let s3 : State := { machine 0 0 0 with pc := 254, mem := [(254, 0x82)] }
    (s1.status = .running ∧ s1.cfg.memSize ≤ s1.pc) ∧
    (s2.status = .running ∧ s2.pc < s2.cfg.memSize ∧ ∀ o : Op, defaultOpcodeMap.byte o ≠ Memory.read s2.mem s2.pc) ∧
    (s3.status = .running ∧ s3.pc < s3.cfg.memSize ∧ defaultOpcodeMap.byte .ldi = Memory.read s3.mem s3.pc ∧
      s3.cfg.memSize ≤ s3.pc + operandCount .ldi) :=
  ⟨by decide, ⟨by decide, by decide, fun o => by cases o <;> decide⟩, by decide⟩

theorem witness_StepOutsideARun :
    State.reset.status = .ready ∧ (State.reset.setStatus .halted).status = .halted ∧
    (State.reset.raiseFault .unknownOpcode none).status = .faulted ∧ ∃ t, step (machine 0 0 0) = .next t :=
  ⟨rfl, rfl, rfl, _, rfl⟩

theorem witness_FetchWordRunsNext :
    ({ State.reset with pc := 253 } : State).pc + 3 ≤ State.reset.cfg.memSize ∧
    decodeWord State.reset.cfg.opcodes 24 0x0107A0 = some (.add 7 1) := by decide

theorem witness_FaultEntryIsPrecise : ∃ t, step (machine 0 0 0) = .next t ∧ t.status = .faulted := ⟨_, rfl, rfl⟩

theorem witness_BadRegisterIndexRaisesOutOfBounds : 8 ≤ (8 : Byte).toNat ∧ 8 ≤ (255 : Byte).toNat := by decide

/-- A fault for each disjunct, at the boundary value of each. -/
theorem witness_OnlyTheListedFaults :
    RaisesFault (.mod 0 7) { machine 0 0 0 with regs := State.reset.regs.set 7 0 } .divisionByZero ∧
    RaisesFault (.push 7) { machine 0 0 0 with sp := 0 } .stackOverflow ∧
    RaisesFault .ret (machine 0 0 0) .stackUnderflow ∧
    RaisesFault (.call 7) { machine 0 0 0 with pc := 254 } .outOfBounds ∧
    RaisesFault (.ld 0 7) { machine 0 0 0 with cfg := { defaultConfig with memSize := 0xF4, spInit := 0xF3 } } .outOfBounds ∧
    RaisesFault (.st 7 0) { machine 0 0 0 with cfg := { defaultConfig with memSize := 0xF4, spInit := 0xF3 } } .outOfBounds ∧
    RaisesFault (.push 0) { machine 0 0 0 with sp := 256 } .outOfBounds ∧
    RaisesFault .ret { machine 0 0 0 with sp := 255 } .outOfBounds ∧
    (Instr.mod 0 7).wellFormed = true ∧ (machine 0 0 0).status = .running :=
  ⟨rfl, rfl, rfl, rfl, rfl, rfl, rfl, rfl, rfl, rfl⟩

/-- The invariant in a Running state, and CALL's one reason there. -/
theorem witness_StackAccessIsNeverOutOfBounds :
    (machine 0 0 0).Inv ∧ (machine 0 0 0).status = .running ∧ (7 : Byte).toNat < 8 ∧
    RaisesFault (.call 7) { machine 0 0 0 with pc := 254 } .outOfBounds :=
  ⟨⟨by decide, by decide, by decide, by decide, by decide, by decide, by decide, by decide, by decide⟩, rfl, by decide,
    rfl⟩

/-- The register operands of the result statements: 0 and 7. -/
theorem witness_register_operands : (0 : Byte).toNat < 8 ∧ (7 : Byte).toNat < 8 := by decide

/-- The last address in memory and the first outside it. -/
theorem witness_LdLoadsTheByteAtItsAddress :
    ((machine 0 255 0).regs[(1 : Byte).toNat]).toNat < (machine 0 0 0).cfg.memSize ∧
    ({ defaultConfig with memSize := 255 } : Config).memSize ≤ ((machine 0 255 0).regs[(1 : Byte).toNat]).toNat := by decide

theorem witness_StStoresTheByteAtItsAddress :
    ((machine 255 0 0).regs[(0 : Byte).toNat]).toNat < (machine 0 0 0).cfg.memSize ∧
    ({ defaultConfig with memSize := 255 } : Config).memSize ≤ ((machine 255 0 0).regs[(0 : Byte).toNat]).toNat := by decide

theorem witness_ModResult :
    ((machine 0 1 0).regs[(1 : Byte).toNat]).toNat ≠ 0 ∧ ((machine 0 0 0).regs[(1 : Byte).toNat]).toNat = 0 := by decide

theorem witness_ShiftResults : 8 ≤ ((machine 0 8 0).regs[(1 : Byte).toNat]).toNat := by decide

theorem witness_CmpSetsExactlyOneFlag :
    ((machine 255 255 0).regs[0]).toNat = ((machine 255 255 0).regs[1]).toNat ∧
    ((machine 255 254 0).regs[1]).toNat < ((machine 255 254 0).regs[0]).toNat ∧
    ((machine 0 1 0).regs[0]).toNat < ((machine 0 1 0).regs[1]).toNat := by decide

theorem witness_SameRegisterTwice : ((machine 1 0 0).regs[0]).toNat ≠ 0 ∧ ((machine 0 0 0).regs[0]).toNat = 0 := by
  decide

theorem witness_PushResult :
    (({ machine 0 0 0 with sp := 1 } : State).sp ≠ 0 ∧
      ({ machine 0 0 0 with sp := 1 } : State).sp < (machine 0 0 0).cfg.memSize) ∧
    ({ machine 0 0 0 with sp := 0 } : State).sp = 0 := by decide

theorem witness_PopResult :
    (({ machine 0 0 0 with sp := 0xF3 } : State).sp ≠ (machine 0 0 0).cfg.spInit ∧
      ({ machine 0 0 0 with sp := 0xF3 } : State).sp + 1 < (machine 0 0 0).cfg.memSize) ∧
    (machine 0 0 0).sp = (machine 0 0 0).cfg.spInit := by decide

theorem witness_PushThenPopRoundTrips :
    0 < (machine 0 0 0).sp ∧ (machine 0 0 0).sp ≤ (machine 0 0 0).cfg.spInit ∧ (machine 0 0 0).cfg.wf := by decide

theorem witness_CallResult :
    ((machine 0 0 0).sp ≠ 0 ∧ (machine 0 0 0).sp < (machine 0 0 0).cfg.memSize ∧
      ({ machine 0 0 0 with pc := 253 } : State).pc + 2 ≤ 255) ∧
    ({ machine 0 0 0 with sp := 0 } : State).sp = 0 ∧ 255 < ({ machine 0 0 0 with pc := 254 } : State).pc + 2 := by decide

theorem witness_RetResult :
    (({ machine 0 0 0 with sp := 0 } : State).sp ≠ (machine 0 0 0).cfg.spInit ∧
      ({ machine 0 0 0 with sp := 0 } : State).sp + 1 < (machine 0 0 0).cfg.memSize) ∧
    (machine 0 0 0).sp = (machine 0 0 0).cfg.spInit := by decide

theorem witness_CallThenRetReturns :
    0 < ({ machine 0 0 0 with pc := 253 } : State).sp ∧ (machine 0 0 0).sp ≤ (machine 0 0 0).cfg.spInit ∧
    (machine 0 0 0).cfg.wf ∧ ({ machine 0 0 0 with pc := 253 } : State).pc < 254 ∧
    ∃ t, exec (.call 7) { machine 0 0 0 with pc := 253 } = .next t ∧
      ∃ u : State, u.cfg = t.cfg ∧ u.sp = t.sp ∧ Memory.read u.mem 0xF4 = Memory.read t.mem 0xF4 :=
  ⟨by decide, by decide, by decide, by decide, _, rfl, _, rfl, rfl, rfl⟩

theorem witness_JeqResult_JneResult :
    ({ machine 0 0 0 with fl := { e := true, g := false, l := false } } : State).fl.e = true ∧
    (machine 0 0 0).fl.e = false := by decide

theorem witness_RegisterFormsFrame : Instr.dec 0 ∈ [Instr.inc 0, .dec 0] ∧
    (∃ t, exec (.dec 0) (machine 0 0 0) = .next t) ∧ ∃ t, exec (.mod 0 1) (machine 0 0 0) = .next t :=
  ⟨by decide, ⟨_, rfl⟩, ⟨_, rfl⟩⟩

theorem witness_NoRegisterFormsFrame :
    (∃ t, exec (.cmp 0 7) (machine 0 0 0) = .next t) ∧ (∃ t, exec (.prn 0) (machine 0 0 0) = .next t) ∧
    (∃ t, exec (.jmp 8) (machine 0 0 0) = .next t) ∧ ∃ t, exec .hlt (machine 0 0 0) = .next t :=
  ⟨⟨_, rfl⟩, ⟨_, rfl⟩, ⟨_, rfl⟩, ⟨_, rfl⟩⟩

/-- One address the store leaves alone, for each storing form. -/
theorem witness_StoringFormsFrame :
    (∃ t, exec (.st 0 1) (machine 255 1 0) = .next t) ∧ (254 ≠ ((machine 255 1 0).regs[(0 : Byte).toNat]).toNat) ∧
    (∃ t, exec (.push 0) (machine 255 1 0) = .next t) ∧ (∃ t, exec (.call 0) (machine 255 1 0) = .next t) ∧
    0xF3 ≠ (machine 255 1 0).sp :=
  ⟨⟨_, rfl⟩, by decide, ⟨_, rfl⟩, ⟨_, rfl⟩, by decide⟩

theorem witness_PoppingFormsFrame :
    (∃ t, exec (.pop 7) { machine 0 0 0 with sp := 0 } = .next t) ∧
    ∃ t, exec .ret { machine 0 0 0 with sp := 0 } = .next t :=
  ⟨⟨_, rfl⟩, ⟨_, rfl⟩⟩

theorem witness_FlagsAreCmpsAlone :
    (∀ a b : Byte, Instr.jeq 0 ≠ .cmp a b) ∧ (∃ t, exec (.jeq 0) (machine 0 0 0) = .next t) ∧
    (∃ t, exec (.cmp 0 7) (machine 0 0 0) = .next t) ∧
    (∀ a b : Byte, Instr.add 0 1 ≠ .cmp a b ∧ Instr.add 0 1 ≠ .jeq a ∧ Instr.add 0 1 ≠ .jne a) ∧
    ∃ t, exec (.add 0 1) (machine 0 0 0) = .next t :=
  ⟨by simp, ⟨_, rfl⟩, ⟨_, rfl⟩, by simp, ⟨_, rfl⟩⟩

theorem witness_StackPointerIsTheStackInstructions :
    (∀ a : Byte, Instr.st 0 1 ≠ .push a ∧ Instr.st 0 1 ≠ .pop a ∧ Instr.st 0 1 ≠ .call a) ∧
    Instr.st 0 1 ≠ .ret ∧ ∃ t, exec (.st 0 1) (machine 0 0 0) = .next t :=
  ⟨by simp, by simp, ⟨_, rfl⟩⟩

theorem witness_MemoryIsWrittenByStoresOnly :
    (∀ a b : Byte, Instr.pop 0 ≠ .st a b ∧ Instr.pop 0 ≠ .push a ∧ Instr.pop 0 ≠ .call a) ∧
    (∃ t, exec (.pop 0) { machine 0 0 0 with sp := 3 } = .next t) ∧ (∃ t, State.reset.startRun = some t) ∧
    ∃ t, step { machine 9 0 0 with mem := [(0, 0x45)] } = .next t ∧ t.mem ≠ [(0, 0x45)] :=
  ⟨by simp, ⟨_, rfl⟩, ⟨_, rfl⟩, ⟨_, rfl, by decide⟩⟩

theorem witness_R7HasNoRole : (∀ r ∈ (Instr.call 6).regOperands, r.toNat ≠ 7) ∧
    ∃ t, exec (.call 6) (machine 0 0 0) = .next t := ⟨by decide, ⟨_, rfl⟩⟩

theorem witness_PcIsWrittenOnce :
    (machine 0 0 0).status = .running ∧ (∃ t, exec (.jeq 0) (machine 0 0 0) = .next t) ∧
    (machine 0 0 0).cfg.memSize ≤ ({ machine 0 0 0 with pc := 256 } : State).pc := ⟨rfl, ⟨_, rfl⟩, by decide⟩

theorem witness_OutputOnlyGrows : (∀ a : Byte, Instr.hlt ≠ .prn a ∧ Instr.hlt ≠ .pra a) ∧
    (∃ t, exec .hlt (machine 0 0 0) = .next t) ∧
    ∃ t, step ((machine 3 0 0).withFetchWord 16 0x0047) = .next t ∧ t.output = [.dec 3] :=
  ⟨by simp, ⟨_, rfl⟩, ⟨_, rfl, rfl⟩⟩

theorem witness_StepKeepsTheRunInOrder : (machine 0 0 0).status = .running ∧
    (∃ t, exec .hlt (machine 0 0 0) = .next t) ∧ ∃ t, step (machine 0 0 0) = .next t := ⟨rfl, ⟨_, rfl⟩, ⟨_, rfl⟩⟩

theorem witness_MemoryWriteIsReadBack : 255 < State.reset.cfg.memSize ∧ State.reset.cfg.memSize ≤ 256 := by decide

theorem witness_CanonicalMemoryIsItsReads : Memory.wf [(0, 1), (255, 2)] := by decide

theorem witness_StoresAreSeenByFetch :
    ((machine 255 1 0).regs[(0 : Byte).toNat]).toNat < (machine 255 1 0).cfg.memSize ∧
    (∃ t u : State, exec (.st 0 1) (machine 255 1 0) = .next t ∧ u.status = .running ∧ u.cfg = t.cfg ∧
      u.mem = t.mem ∧ u.pc = ((machine 255 1 0).regs[(0 : Byte).toNat]).toNat) ∧
    ((encode .hlt)[0]? = some (machine 255 1 0).regs[(1 : Byte).toNat] ∧
      255 + (encode .hlt).length ≤ (machine 255 1 0).cfg.memSize) ∧
    ∀ o : Op, defaultOpcodeMap.byte o ≠ (machine 255 0 0).regs[(1 : Byte).toNat] :=
  ⟨by decide, ⟨_, { machine 0 0 0 with mem := [(255, 1)], pc := 255 }, rfl, rfl, rfl, rfl, rfl⟩, by decide,
    fun o => by cases o <;> decide⟩

/-- An image that just fits, one byte more, and the states in which `load` is no move. -/
theorem witness_LoadPlacesTheImage :
    let s : State := State.construct { defaultConfig with memSize := 2, spInit := 1 }
    s.status = .ready ∧ s.loaded = false ∧ [(1 : Byte), 2].length ≤ s.cfg.memSize ∧
    s.cfg.memSize < [(1 : Byte), 2, 3].length ∧ (machine 0 0 0).status ≠ .ready ∧
    ({ s with loaded := true } : State).loaded = true := by decide

theorem witness_RunIsItsSteps :
    State.reset.status = .ready ∧ (State.reset.setStatus .halted).status = .halted ∧
    ((State.reset.raiseFault .unknownOpcode none).status = .faulted ∧
      (State.reset.raiseFault .unknownOpcode none).faultRecord.isSome = true) ∧
    (machine 0 0 0).status = .running := by decide

theorem witness_ResetMeetsTheInvariant : ({ defaultConfig with memSize := 1, spInit := 0 } : Config).wf ∧ defaultConfig.wf := by decide

theorem witness_StepKeepsTheInvariant : (machine 0 0 0).Inv ∧ ∃ t, step (machine 0 0 0) = .next t :=
  ⟨witness_StackAccessIsNeverOutOfBounds.1, ⟨_, rfl⟩⟩

theorem witness_HostMovesKeepTheInvariant : State.reset.Inv ∧ (∃ t, State.reset.load [1] = some t) ∧
    ∃ t, State.reset.startRun = some t :=
  ⟨⟨by decide, by decide, by decide, by decide, by decide, by decide, by decide, by decide, by decide⟩, ⟨_, rfl⟩,
    ⟨_, rfl⟩⟩

theorem witness_ReachableStatesMeetTheInvariant : Reachable State.reset ∧ 253 ≤ State.reset.cfg.memSize :=
  ⟨.construct defaultConfig (by decide), by decide⟩

end Sys2Proof.Tests
end

section
/-! PROOF. The frame layer: which parts of the state an instruction's effect leaves alone, one lemma per field, each
derived from the inversion `exec_eq_next` and the rules of `Effect`. -/

namespace Sys2Proof

/-- The operand byte naming the register an instruction writes, if it writes one. -/
def Instr.destination : Instr → Option Byte
  | .ldi a _ | .ld a _ | .add a _ | .mul a _ | .mod a _ | .and a _ | .or a _ | .xor a _ => some a
  | .shl a _ | .shr a _ | .not a _ | .inc a | .dec a | .pop a => some a
  | _ => none

/-- The operations that move SP (10_state.md rule R26). -/
def stackOps : List Op := [.push, .pop, .call, .ret]

/-- The operations that write memory (10_state.md rule R34). -/
def storingOps : List Op := [.st, .push, .call]

/-- The operations that append to the output (10_state.md rule R30). -/
def printingOps : List Op := [.prn, .pra]

end Sys2Proof

namespace Sys2Proof.Machine

variable {i : Instr} {s t : State} {a b : Byte}

/-! ### What every effect leaves alone -/

theorem Effect.cfg_eq (h : Effect i s t) : t.cfg = s.cfg := by cases h <;> rfl

theorem Effect.loaded_eq (h : Effect i s t) : t.loaded = s.loaded := by cases h <;> rfl

theorem Effect.faultRecord_eq (h : Effect i s t) : t.faultRecord = s.faultRecord := by cases h <;> rfl

/-! ### Status, flags, output and SP: who alone writes each -/

theorem Effect.status_eq (h : Effect i s t) (hi : i ≠ .hlt) : t.status = s.status := by
  cases h with
  | hlt => exact absurd rfl hi
  | _ => rfl

theorem Effect.status_of_hlt (h : Effect .hlt s t) : t.status = .halted := by cases h; rfl

theorem Effect.fl_eq (h : Effect i s t) (hop : i.op ≠ .cmp) : t.fl = s.fl := by
  cases h with
  | cmp => exact absurd rfl hop
  | _ => rfl

theorem Effect.output_eq (h : Effect i s t) (hop : i.op ∉ printingOps) : t.output = s.output := by
  cases h with
  | prn | pra => simp [Instr.op, printingOps] at hop
  | _ => rfl

theorem Effect.sp_eq (h : Effect i s t) (hop : i.op ∉ stackOps) : t.sp = s.sp := by
  cases h with
  | push | pop | call | ret => simp [Instr.op, stackOps] at hop
  | _ => rfl

/-! ### Registers -/

/-- Everything an effect can do to the registers: write its destination, or nothing where it has none. -/
theorem Effect.regs_cases (h : Effect i s t) :
    (i.destination = none ∧ t.regs = s.regs) ∨
    ∃ (d : Byte) (hd : d.toNat < 8) (v : Byte), i.destination = some d ∧ t.regs = s.regs.set d.toNat v := by
  cases h with
  | ldi ha | ld ha | add ha | mul ha | mod ha | and ha | or ha | xor ha | shl ha | shr ha | not ha | inc ha | dec ha
  | pop ha => exact .inr ⟨_, ha, _, rfl, rfl⟩
  | _ => exact .inl ⟨rfl, rfl⟩

theorem Effect.regs_eq (h : Effect i s t) (hd : i.destination = none) : t.regs = s.regs := by
  rcases h.regs_cases with ⟨_, hregs⟩ | ⟨_, _, _, hsome, _⟩
  · exact hregs
  · simp [hd] at hsome

theorem Effect.getElem_regs_of_ne (h : Effect i s t) {q : Nat} (hq : q < 8)
    (hne : ∀ d ∈ i.destination, q ≠ d.toNat) : t.regs[q] = s.regs[q] := by
  rcases h.regs_cases with ⟨_, hregs⟩ | ⟨d, hd, v, hsome, hregs⟩
  · simp only [hregs]
  · simp only [hregs, Vector.getElem_set_ne hd hq (hne d hsome).symm]

/-! ### Memory -/

theorem Effect.mem_eq (h : Effect i s t) (hop : i.op ∉ storingOps) : t.mem = s.mem := by
  cases h with
  | st | push | call => simp [Instr.op, storingOps] at hop
  | _ => rfl

/-- Every instruction but ST writes memory at SP or not at all. -/
theorem Effect.read_mem_of_ne_sp (h : Effect i s t) (hop : i.op ≠ .st) {x : Nat} (hx : x ≠ s.sp) :
    Memory.read t.mem x = Memory.read s.mem x := by
  cases h with
  | st => exact absurd rfl hop
  | push | call => exact Memory.read_write_of_ne _ _ hx
  | _ => rfl

/-- ST writes memory at the address in op_a's register only. -/
theorem Effect.read_mem_of_st (h : Effect (.st a b) s t) {x : Nat}
    (hx : ∀ ha : a.toNat < 8, x ≠ s.regs[a.toNat].toNat) : Memory.read t.mem x = Memory.read s.mem x := by
  cases h with
  | st ha => exact Memory.read_write_of_ne _ _ (hx ha)

/-! ### An instruction completes with its effect or raises a fault -/

theorem Raises.raisesFault {k : FaultKind} (h : Raises i s k) : RaisesFault i s k := exec_of_raises h

/-- `exec_eq_next` with the fault in the statements' words. -/
theorem effect_or_raisesFault (h : exec i s = .next t) :
    Effect i s t ∨ ∃ k opc, RaisesFault i s k ∧ t = s.raiseFault k opc :=
  (exec_eq_next h).imp_right fun ⟨k, hk, ht⟩ => ⟨k, _, hk.raisesFault, ht⟩

end Sys2Proof.Machine
end

section
/-! PROOF. The frames of the four groups of instructions (00_scope.md rule R10). -/

namespace Sys2Proof.Machine

/-- What the register and load forms have in common: op_a is the destination, and registers are all they write. -/
theorem registerForms_class (a b : Byte) : ∀ i ∈ [Instr.ldi a b, .ld a b, .add a b, .mul a b, .mod a b, .and a b,
      .or a b, .xor a b, .not a b, .shl a b, .shr a b, .inc a, .dec a],
    i.destination = some a ∧ i ≠ .hlt ∧ i.op ≠ .cmp ∧ i.op ∉ stackOps ∧ i.op ∉ storingOps ∧ i.op ∉ printingOps := by
  simp [Instr.destination, Instr.op, stackOps, storingOps, printingOps]

/-- Settles O39: a completed register form is framed by its class, a faulting one by fault entry. -/
theorem registerFormsFrame : Obligations.RegisterFormsFrame := by
  intro a b s t i hi h
  obtain ⟨hdest, hhlt, hcmp, hstack, hstore, hprint⟩ := registerForms_class a b i hi
  rcases effect_or_raisesFault h with he | ⟨k, opc, hk, rfl⟩
  · exact ⟨fun q hq hne => he.getElem_regs_of_ne hq (by simpa [hdest] using hne), he.sp_eq hstack, he.fl_eq hcmp,
      fun x => by rw [he.mem_eq hstore], he.output_eq hprint, he.cfg_eq, he.loaded_eq,
      .inl ⟨he.status_eq hhlt, he.faultRecord_eq⟩⟩
  · exact ⟨fun _ _ _ => rfl, rfl, rfl, fun _ => rfl, rfl, rfl, rfl, .inr ⟨k, hk⟩⟩

/-- What CMP, PRN, PRA, JMP, JEQ, JNE and HLT have in common: no register, SP or memory write, and among them CMP alone
writes FL and PRN and PRA alone print. -/
theorem noRegisterForms_class (a b : Byte) :
    ∀ i ∈ [Instr.cmp a b, .prn a, .pra a, .jmp a, .jeq a, .jne a, .hlt],
    i.destination = none ∧ i.op ∉ stackOps ∧ i.op ∉ storingOps ∧ (i ≠ .cmp a b → i.op ≠ .cmp) ∧
    (i ≠ .prn a → i ≠ .pra a → i.op ∉ printingOps) := by
  simp [Instr.destination, Instr.op, stackOps, storingOps, printingOps]

/-- Settles O40: the effect's frame by the class, with HLT's status apart. -/
theorem noRegisterFormsFrame : Obligations.NoRegisterFormsFrame := by
  intro a b s t i hi h
  obtain ⟨hdest, hstack, hstore, hcmp, hprint⟩ := noRegisterForms_class a b i hi
  rcases effect_or_raisesFault h with he | ⟨k, opc, hk, rfl⟩
  · refine ⟨he.regs_eq hdest, he.sp_eq hstack, fun x => by rw [he.mem_eq hstore], he.cfg_eq, he.loaded_eq,
      fun hi => he.fl_eq (hcmp hi), fun hn ha => he.output_eq (hprint hn ha), ?_⟩
    by_cases hhlt : i = .hlt
    · subst hhlt
      exact .inr (.inr ⟨rfl, he.status_of_hlt, he.faultRecord_eq⟩)
    · exact .inl ⟨he.status_eq hhlt, he.faultRecord_eq⟩
  · exact ⟨rfl, rfl, fun _ => rfl, rfl, rfl, fun _ => rfl, fun _ _ => rfl, .inr (.inl ⟨k, hk⟩)⟩

/-- What ST, PUSH and CALL have in common: memory and, ST excepted, SP are all they write beside the PC. -/
theorem storingForms_class (a b : Byte) : ∀ i ∈ [Instr.st a b, .push a, .call a],
    i.destination = none ∧ i ≠ .hlt ∧ i.op ≠ .cmp ∧ i.op ∉ printingOps ∧ (i = .st a b → i.op ∉ stackOps) ∧
    (i ≠ .st a b → i.op ≠ .st) := by
  simp [Instr.destination, Instr.op, stackOps, printingOps]

/-- Settles O41: ST writes at its address register, PUSH and CALL at SP, and a fault writes no byte. -/
theorem storingFormsFrame : Obligations.StoringFormsFrame := by
  intro a b s t i hi h
  obtain ⟨hdest, hhlt, hcmp, hprint, hstack, hst⟩ := storingForms_class a b i hi
  rcases effect_or_raisesFault h with he | ⟨k, opc, hk, rfl⟩
  · refine ⟨he.regs_eq hdest, he.fl_eq hcmp, he.output_eq hprint, he.cfg_eq, he.loaded_eq,
      fun hi => he.sp_eq (hstack hi), ?_, fun hi x hx => he.read_mem_of_ne_sp (hst hi) hx,
      .inl ⟨he.status_eq hhlt, he.faultRecord_eq⟩⟩
    rintro rfl x hx
    exact he.read_mem_of_st hx
  · exact ⟨rfl, rfl, rfl, rfl, rfl, fun _ => rfl, fun _ _ _ => rfl, fun _ _ _ => rfl,
      .inr ⟨⟨k, hk⟩, fun _ => rfl⟩⟩

/-- What POP and RET have in common: they store nothing, and a destination they have is POP's. -/
theorem poppingForms_class (a : Byte) : ∀ i ∈ [Instr.pop a, .ret],
    (∀ d ∈ i.destination, d = a ∧ i ≠ .ret) ∧ i ≠ .hlt ∧ i.op ≠ .cmp ∧ i.op ∉ storingOps ∧ i.op ∉ printingOps := by
  simp [Instr.destination, Instr.op, storingOps, printingOps]

/-- Settles O42: POP writes its destination alone among the registers, RET none, and neither stores. -/
theorem poppingFormsFrame : Obligations.PoppingFormsFrame := by
  intro a s t i hi h
  obtain ⟨hdest, hhlt, hcmp, hstore, hprint⟩ := poppingForms_class a i hi
  rcases effect_or_raisesFault h with he | ⟨k, opc, hk, rfl⟩
  · refine ⟨fun q hq hne => he.getElem_regs_of_ne hq fun d hd => ?_, he.fl_eq hcmp,
      fun x => by rw [he.mem_eq hstore], he.output_eq hprint, he.cfg_eq, he.loaded_eq,
      .inl ⟨he.status_eq hhlt, he.faultRecord_eq⟩⟩
    obtain ⟨rfl, hret⟩ := hdest d hd
    exact hne.resolve_left hret
  · exact ⟨fun _ _ _ => rfl, rfl, fun _ => rfl, rfl, rfl, rfl, .inr ⟨k, hk⟩⟩

end Sys2Proof.Machine
end

section
/-! PROOF. The invariant at reset: the base case of every induction over reachable states. -/

namespace Sys2Proof.Machine

theorem State.construct_inv {c : Config} (hc : c.wf) : (State.construct c).Inv where
  cfg_wf := hc
  pc_le := Nat.zero_le _
  sp_le := Nat.le_refl _
  mem_wf := Memory.wf_nil
  mem_lt := by simp [State.construct]
  fl_exclusive := by simp [State.construct]
  record_iff := by simp [State.construct]
  record_shape := by simp [State.construct]
  ready_output _ := rfl

theorem defaultConfig_wf : defaultConfig.wf := by decide

/-- Settles O56: reset is the construction with the default parameters, which meet rule R7's constraint. -/
theorem resetMeetsTheInvariant : Obligations.ResetMeetsTheInvariant :=
  ⟨State.construct_inv defaultConfig_wf, fun _ => State.construct_inv⟩

end Sys2Proof.Machine
end

section
/-! PROOF. Register operands of 8 or more, and the stack's addresses: which faults an instruction raises
(60_exceptions.md rule R200, 10_state.md rules R23 and R27). -/

namespace Sys2Proof.Machine

variable {i : Instr} {s t : State} {k : FaultKind}

/-- Of a Running machine, raising a fault in the statements' words has one of the reasons of rule R200: no effect
leaves the status Faulted. -/
theorem RaisesFault.raises (h : RaisesFault i s k) (hs : s.status = .running) : Raises i s k := by
  rcases exec_eq_next h with he | ⟨l, hl, heq⟩
  · by_cases hi : i = .hlt
    · subst hi; cases he.status_of_hlt
    · cases (he.status_eq hi).trans hs
  · have hk : k = l := by simpa using congrArg State.faultRecord heq
    exact hk ▸ hl

theorem oneRegisterForms_regOperands (a b : Byte) : ∀ i ∈ [Instr.ldi a b, .not a b, .prn a, .pra a, .inc a, .dec a,
    .push a, .pop a, .call a, .jmp a, .jeq a, .jne a], i.regOperands = [a] := by
  simp [Instr.regOperands]

theorem twoRegisterForms_regOperands (a b : Byte) : ∀ i ∈ [Instr.mul a b, .add a b, .and a b, .or a b, .xor a b,
    .shl a b, .shr a b, .mod a b, .cmp a b, .st a b, .ld a b], i.regOperands = [a, b] := by
  simp [Instr.regOperands]

/-- Settles O14: a form with an operand of 8 or more is ill-formed, and that alone is a reason to raise OutOfBounds. -/
theorem badRegisterIndexRaisesOutOfBounds : Obligations.BadRegisterIndexRaisesOutOfBounds := fun a b _ =>
  ⟨fun ha i hi => (Raises.badRegister (Instr.wellFormed_one (oneRegisterForms_regOperands a b i hi) ha)).raisesFault,
    fun hab i hi =>
      (Raises.badRegister (Instr.wellFormed_two (twoRegisterForms_regOperands a b i hi) hab)).raisesFault⟩

/-- Under the invariant PUSH and CALL write inside memory. -/
theorem State.Inv.sp_lt_memSize (h : s.Inv) : s.sp < s.cfg.memSize := Nat.lt_of_le_of_lt h.sp_le h.cfg_wf

/-- Under the invariant POP and RET read inside memory once they have passed the underflow check. -/
theorem State.Inv.sp_succ_lt_memSize (h : s.Inv) (hsp : s.sp ≠ s.cfg.spInit) : s.sp + 1 < s.cfg.memSize :=
  Nat.lt_of_le_of_lt (Nat.lt_of_le_of_ne h.sp_le hsp) h.cfg_wf

theorem Instr.wellFormed_ne_false_of_lt {a : Byte} (hi : i.regOperands = [a]) (ha : a.toNat < 8) :
    i.wellFormed ≠ false := by
  simp [Instr.wellFormed, hi, ha]

/-- Settles O16: each reason for OutOfBounds is ruled out by the operand, by the bound on SP, or is CALL's return
address. -/
theorem stackAccessIsNeverOutOfBounds : Obligations.StackAccessIsNeverOutOfBounds := by
  intro s a hinv hrun ha
  refine ⟨fun h => ?push, fun h => ?pop, fun h => ?ret, fun h => ?call⟩
  case push =>
    cases h.raises hrun with
    | badRegister hbad => exact Instr.wellFormed_ne_false_of_lt rfl ha hbad
    | pushAddress _ _ hm => exact Nat.not_le.mpr hinv.sp_lt_memSize hm
  case pop =>
    cases h.raises hrun with
    | badRegister hbad => exact Instr.wellFormed_ne_false_of_lt rfl ha hbad
    | popAddress _ h0 hm => exact Nat.not_le.mpr (hinv.sp_succ_lt_memSize h0) hm
  case ret =>
    cases h.raises hrun with
    | badRegister hbad => cases hbad
    | retAddress h0 hm => exact Nat.not_le.mpr (hinv.sp_succ_lt_memSize h0) hm
  case call =>
    cases h.raises hrun with
    | badRegister hbad => exact absurd hbad (Instr.wellFormed_ne_false_of_lt rfl ha)
    | returnAddress _ _ hret => exact hret
    | callAddress _ _ hm => exact absurd hm (Nat.not_le.mpr hinv.sp_lt_memSize)

end Sys2Proof.Machine
end

section
/-! PROOF. Who writes memory, the output and the run status: the frame layer read at `exec` and at `step`
(10_state.md rules R30, R31 and R34). -/

namespace Sys2Proof.Machine

variable {i : Instr} {s t : State}

theorem exec_mem_eq (h : exec i s = .next t) (hop : i.op ∉ storingOps) : t.mem = s.mem := by
  rcases exec_eq_next h with he | ⟨_, _, rfl⟩
  · exact he.mem_eq hop
  · rfl

theorem exec_output_eq (h : exec i s = .next t) (hop : i.op ∉ printingOps) : t.output = s.output := by
  rcases exec_eq_next h with he | ⟨_, _, rfl⟩
  · exact he.output_eq hop
  · rfl

/-- An instruction appends at most one event. -/
theorem exec_output_cases (h : exec i s = .next t) : t.output = s.output ∨ ∃ e, t.output = s.output ++ [e] := by
  rcases exec_eq_next h with he | ⟨_, _, rfl⟩
  · cases he with
    | prn | pra => exact .inr ⟨_, rfl⟩
    | _ => exact .inl rfl
  · exact .inl rfl

/-- The opcode byte of a fetched instruction stands in memory at the PC. -/
theorem State.byte_op_of_fetch (h : s.fetch = .ok i) : s.cfg.opcodes.byte i.op = Memory.read s.mem s.pc := by
  rcases s.fetch_cases with ⟨_, hf⟩ | ⟨_, _, hf⟩ | ⟨_, _, _, _, hf⟩ | ⟨j, _, hj, hf⟩ <;> rw [hf] at h
  case inr.inr.inr => injection h with h; exact h ▸ hj
  all_goals cases h

theorem State.startRun_mem_eq (h : s.startRun = some t) : t.mem = s.mem := by
  unfold State.startRun at h
  split at h <;> cases h <;> rfl

theorem Instr.op_notMem_storingOps (h : ∀ a b : Byte, i ≠ .st a b ∧ i ≠ .push a ∧ i ≠ .call a) :
    i.op ∉ storingOps := by
  cases i with
  | st a b => exact absurd rfl (h a b).1
  | push a => exact absurd rfl (h a 0).2.1
  | call a => exact absurd rfl (h a 0).2.2
  | _ => simp [Instr.op, storingOps]

/-- Settles O45: a step that changes memory fetched an instruction that stores, and its opcode stands at the PC. -/
theorem memoryIsWrittenByStoresOnly : Obligations.MemoryIsWrittenByStoresOnly := by
  refine ⟨fun i s t hi h => exec_mem_eq h (Instr.op_notMem_storingOps hi),
    fun s t => ⟨State.startRun_mem_eq, fun h hne => ?_⟩⟩
  obtain ⟨-, ⟨_, _, _, rfl⟩ | ⟨i, hfetch, hexec⟩⟩ := step_cases h
  · exact absurd rfl hne
  · exact ⟨i.op, by_contra fun hop => hne (exec_mem_eq hexec hop), (State.byte_op_of_fetch hfetch).symm⟩

theorem Instr.op_notMem_printingOps (h : ∀ a : Byte, i ≠ .prn a ∧ i ≠ .pra a) : i.op ∉ printingOps := by
  cases i with
  | prn a => exact absurd rfl (h a).1
  | pra a => exact absurd rfl (h a).2
  | _ => simp [Instr.op, printingOps]

/-- Settles O48: PRN and PRA append one event each, and a fetch fault none. -/
theorem outputOnlyGrows : Obligations.OutputOnlyGrows := by
  refine ⟨fun i s t hi h => exec_output_eq h (Instr.op_notMem_printingOps hi), fun s t h => ?_⟩
  obtain ⟨-, ⟨_, _, _, rfl⟩ | ⟨i, -, hexec⟩⟩ := step_cases h
  · exact .inl rfl
  · exact exec_output_cases hexec

/-- From Running HLT ends Halted, and any other instruction still Running or Faulted. -/
theorem exec_status_cases (h : exec i s = .next t) (hs : s.status = .running) :
    (i = .hlt ∧ t.status = .halted) ∨ (i ≠ .hlt ∧ (t.status = .running ∨ t.status = .faulted)) := by
  rcases exec_eq_next h with he | ⟨k, hk, rfl⟩
  · by_cases hi : i = .hlt
    · subst hi; exact .inl ⟨rfl, he.status_of_hlt⟩
    · exact .inr ⟨hi, .inl ((he.status_eq hi).trans hs)⟩
  · refine .inr ⟨?_, .inr rfl⟩
    rintro rfl
    exact (Effect.hlt (s := s)).not_raises hk

theorem exec_cfg_loaded_eq (h : exec i s = .next t) : t.cfg = s.cfg ∧ t.loaded = s.loaded := by
  rcases exec_eq_next h with he | ⟨_, _, rfl⟩
  · exact ⟨he.cfg_eq, he.loaded_eq⟩
  · exact ⟨rfl, rfl⟩

/-- Settles O49: a step is taken from Running, and there an instruction's status is one of three. -/
theorem stepKeepsTheRunInOrder : Obligations.StepKeepsTheRunInOrder := by
  refine ⟨fun i s t hs h => ?_, fun s t h => ?_⟩
  · rcases exec_status_cases h hs with ⟨hi, ht⟩ | ⟨hi, ht | ht⟩ <;> simp [hi, ht]
  · obtain ⟨hs, ⟨_, _, _, rfl⟩ | ⟨i, -, hexec⟩⟩ := step_cases h
    · exact ⟨by simp, rfl, rfl⟩
    · refine ⟨?_, exec_cfg_loaded_eq hexec⟩
      rcases exec_status_cases hexec hs with ⟨_, ht⟩ | ⟨_, ht | ht⟩ <;> simp [ht]

end Sys2Proof.Machine
end

section
/-! PROOF. The canonical form of memory (20_memory.md section 1): a canonical memory lists exactly the non-zero bytes its
reads show. -/

namespace Sys2Proof.Machine

variable {m n : Memory}

theorem Memory.wf.tail {c : Host.Cell} (h : Memory.wf (c :: m)) : Memory.wf m :=
  ⟨h.1.of_cons, fun d hd => h.2 d (List.mem_cons_of_mem _ hd)⟩

/-- The entries of a canonical memory are the addresses that do not read 0, each with what it reads. -/
theorem Memory.mem_iff_read (h : Memory.wf m) (c : Host.Cell) : c ∈ m ↔ c.2 ≠ 0 ∧ Memory.read m c.1 = c.2 := by
  induction m with
  | nil => simpa using fun h0 => Ne.symm h0
  | cons d m ih =>
    have hd : ∀ x ∈ m, d.1 < x.1 := (List.pairwise_cons.mp h.1).1
    rw [List.mem_cons, Memory.read_cons, ih (Memory.wf.tail h)]
    by_cases hc : d.1 = c.1
    · have hzero : Memory.read m c.1 = 0 := Memory.read_eq_zero m c.1 fun x hx => hc ▸ (hd x hx).ne'
      have hd0 : d.2 ≠ 0 := h.2 d List.mem_cons_self
      rw [if_pos hc, hzero]
      constructor
      · rintro (rfl | ⟨hc0, h0⟩)
        · exact ⟨hd0, rfl⟩
        · exact absurd h0.symm hc0
      · exact fun ⟨_, hv⟩ => .inl (Prod.ext hc.symm hv.symm)
    · rw [if_neg hc]
      exact or_iff_right fun heq => hc (congrArg Prod.fst heq.symm)

/-- Settles O51: memories that read alike have the same entries, and their rising order leaves one list of them. -/
theorem canonicalMemoryIsItsReads : Obligations.CanonicalMemoryIsItsReads := by
  intro m n hm hn hread
  have hentries : ∀ c : Host.Cell, c ∈ m ↔ c ∈ n := fun c => by
    rw [Memory.mem_iff_read hm, Memory.mem_iff_read hn, hread]
  have : Std.Irrefl (fun x y : Host.Cell => x.1 < y.1) := ⟨fun _ => Nat.lt_irrefl _⟩
  have : Std.Antisymm (fun x y : Host.Cell => x.1 < y.1) := ⟨fun _ _ h h' => absurd h (Nat.lt_asymm h')⟩
  exact hm.1.eq_of_mem_iff hn.1 hentries

end Sys2Proof.Machine
end

section
/-! PROOF. What an instruction does not read: with another FL it does the same to everything else (10_state.md rule
R28). -/

namespace Sys2Proof

/-- The operations that read E (45_control.md rules R183, R184). -/
def branchOps : List Op := [.jeq, .jne]

end Sys2Proof

namespace Sys2Proof.Machine

variable {i : Instr} {s t : State}

/-- An instruction commutes with a change of the state that its effect commutes with, that its faults' conditions do not
see and that fault entry keeps. -/
theorem exec_map {F : State → State} (h : exec i s = .next t) (heffect : Effect i s t → Effect i (F s) (F t))
    (hraises : ∀ k, Raises i s k → Raises i (F s) k) (hcfg : (F s).cfg = s.cfg)
    (hfault : ∀ k opc, F (s.raiseFault k opc) = (F s).raiseFault k opc) : exec i (F s) = .next (F t) := by
  rcases exec_eq_next h with he | ⟨k, hk, rfl⟩
  · exact exec_of_effect (heffect he)
  · rw [exec_of_raises (hraises k hk), hfault, hcfg]

theorem exec_fl_eq (h : exec i s = .next t) (hop : i.op ≠ .cmp) : t.fl = s.fl := by
  rcases exec_eq_next h with he | ⟨_, _, rfl⟩
  · exact he.fl_eq hop
  · rfl

/-- Every effect but CMP's is the same with another FL, if E is the same where E is read. -/
theorem Effect.setFl (h : Effect i s t) (f : Flags) (hop : i.op ≠ .cmp) (he : i.op ∈ branchOps → f.e = s.fl.e) :
    Effect i (s.setFl f) (t.setFl f) := by
  cases h with
  | cmp => exact absurd rfl hop
  | jeqTaken ha h => exact .jeqTaken ha ((he (by simp [Instr.op, branchOps])).trans h)
  | jeqNot ha h => exact .jeqNot ha ((he (by simp [Instr.op, branchOps])).trans h)
  | jneTaken ha h => exact .jneTaken ha ((he (by simp [Instr.op, branchOps])).trans h)
  | jneNot ha h => exact .jneNot ha ((he (by simp [Instr.op, branchOps])).trans h)
  | _ => constructor <;> assumption

theorem exec_setFl (h : exec i s = .next t) (f : Flags) (hop : i.op ≠ .cmp)
    (he : i.op ∈ branchOps → f.e = s.fl.e) : exec i (s.setFl f) = .next (t.setFl f) :=
  exec_map (F := (·.setFl f)) h (·.setFl f hop he) (fun _ hk => hk.congr rfl rfl rfl fun _ _ _ => rfl) rfl
    fun _ _ => rfl

/-- CMP overwrites FL and does not read it. -/
theorem Effect.cmp_setFl {a b : Byte} (h : Effect (.cmp a b) s t) (f : Flags) : Effect (.cmp a b) (s.setFl f) t := by
  cases h with
  | cmp ha hb => exact .cmp (s := s.setFl f) ha hb

theorem compareFlags_exactly_one (x y : Byte) :
    (compareFlags x y).e.toNat + (compareFlags x y).g.toNat + (compareFlags x y).l.toNat = 1 := by
  unfold compareFlags
  split
  · rfl
  · split <;> rfl

theorem Instr.op_ne_cmp (h : ∀ a b : Byte, i ≠ .cmp a b) : i.op ≠ .cmp := by
  cases i with
  | cmp a b => exact absurd rfl (h a b)
  | _ => simp [Instr.op]

theorem Instr.op_notMem_branchOps (h : ∀ a : Byte, i ≠ .jeq a ∧ i ≠ .jne a) : i.op ∉ branchOps := by
  cases i with
  | jeq a => exact absurd rfl (h a).1
  | jne a => exact absurd rfl (h a).2
  | _ => simp [Instr.op, branchOps]

/-- Settles O43: CMP's effect is computed from its operands, the branches split on E, and the rest commute with a write
of FL. -/
theorem flagsAreCmpsAlone : Obligations.FlagsAreCmpsAlone := by
  refine ⟨fun i s t hi h => exec_fl_eq h (Instr.op_ne_cmp hi), fun a b s t f ha hb h => ?cmp, fun a s ha => ?branch,
    fun i s t g l hi h => ?unreadGL, fun i s t f hi h => ?unreadFL⟩
  case cmp =>
    obtain rfl : _ = t := by simpa [exec_of_effect (.cmp ha hb)] using h
    exact ⟨compareFlags_exactly_one _ _, exec_of_effect (Effect.cmp_setFl (.cmp ha hb) f)⟩
  case branch =>
    rcases he : s.fl.e
    · exact ⟨_, _, exec_of_effect (.jeqNot ha he), exec_of_effect (.jneTaken ha he), rfl, rfl⟩
    · exact ⟨_, _, exec_of_effect (.jeqTaken ha he), exec_of_effect (.jneNot ha he), rfl, rfl⟩
  case unreadGL =>
    have hcmp := Instr.op_ne_cmp hi
    rw [exec_fl_eq h hcmp]
    exact exec_setFl h _ hcmp fun _ => rfl
  case unreadFL =>
    exact exec_setFl h f (Instr.op_ne_cmp fun a b => (hi a b).1)
      fun hop => absurd hop (Instr.op_notMem_branchOps fun a => (hi a 0).2)

end Sys2Proof.Machine
end

section
/-! PROOF. A register an instruction does not name is neither read nor written by it (10_state.md rule R21). -/

namespace Sys2Proof.Machine

variable {i : Instr} {s t : State}

theorem Instr.destination_mem_regOperands {d : Byte} (h : d ∈ i.destination) : d ∈ i.regOperands := by
  cases i <;> simp_all [Instr.destination, Instr.regOperands]

theorem State.reg_setReg_of_ne {r q : Fin 8} (v : Byte) (h : q ≠ r) : (s.setReg r v).reg q = s.reg q := by
  simp [State.reg_setReg, h]

theorem State.setReg_comm {r q : Fin 8} (v w : Byte) (h : q ≠ r) :
    (s.setReg q w).setReg r v = (s.setReg r v).setReg q w := by
  unfold State.setReg
  rw [Vector.set_comm]
  simpa [Fin.ext_iff] using h

theorem State.setReg_advance (o : Op) (r : Fin 8) (v : Byte) :
    (s.advance o).setReg r v = (s.setReg r v).advance o := rfl

/-- An effect is the same with another value in a register the instruction does not name: each register it reads reads
the same, and each write of a destination trades places with the write of the other register. -/
theorem Effect.setReg_of_not_named (h : Effect i s t) {r : Fin 8} (v : Byte)
    (hr : ∀ x ∈ i.regOperands, x.toNat ≠ r) : Effect i (s.setReg r v) (t.setReg r v) := by
  have hread : ∀ x ∈ i.regOperands, ∀ hx : x.toNat < 8, s.reg ⟨x.toNat, hx⟩ = (s.setReg r v).reg ⟨x.toNat, hx⟩ :=
    fun x hx _ => (State.reg_setReg_of_ne v (Fin.ne_of_val_ne (hr x hx))).symm
  have hwrite : ∀ x ∈ i.regOperands, ∀ (hx : x.toNat < 8) (u : State) (w : Byte),
      (u.setReg ⟨x.toNat, hx⟩ w).setReg r v = (u.setReg r v).setReg ⟨x.toNat, hx⟩ w :=
    fun x hx _ _ w => State.setReg_comm v w (Fin.ne_of_val_ne (hr x hx))
  cases h with
  | hlt | ret | jeqNot | jneNot => constructor <;> assumption
  | ldi | prn | pra | not | inc | dec | push | pop | call | jmp | jeqTaken | jneTaken =>
    simp only [Instr.regOperands, List.forall_mem_singleton] at hread hwrite
    simp only [State.setReg_advance, hwrite, hread]
    constructor <;> assumption
  | add | mul | and | or | xor | shl | shr | cmp =>
    simp only [Instr.regOperands, List.forall_mem_cons] at hread hwrite
    simp only [State.setReg_advance, hwrite.1, hread.1, hread.2.1]
    constructor
  | mod _ _ h | st _ _ h | ld _ _ h =>
    simp only [Instr.regOperands, List.forall_mem_cons] at hread hwrite
    simp only [hread.1, hread.2.1] at h
    simp only [State.setReg_advance, hwrite.1, hread.1, hread.2.1]
    constructor; assumption

theorem exec_setReg_of_not_named (h : exec i s = .next t) {r : Fin 8} (v : Byte)
    (hr : ∀ x ∈ i.regOperands, x.toNat ≠ r) : exec i (s.setReg r v) = .next (t.setReg r v) :=
  exec_map (F := (·.setReg r v)) h (·.setReg_of_not_named v hr)
    (fun _ hk => hk.congr rfl rfl rfl fun x hx _ => State.reg_setReg_of_ne v (Fin.ne_of_val_ne (hr x hx))) rfl
    fun _ _ => rfl

theorem exec_getElem_regs_of_not_named (h : exec i s = .next t) {q : Nat} (hq : q < 8)
    (hr : ∀ x ∈ i.regOperands, x.toNat ≠ q) : t.regs[q] = s.regs[q] := by
  rcases exec_eq_next h with he | ⟨_, _, rfl⟩
  · exact he.getElem_regs_of_ne hq fun d hd => (hr d (Instr.destination_mem_regOperands hd)).symm
  · rfl

/-- Settles O46: r7 is a register like any other, and no instruction writes or reads one it does not name. -/
theorem r7HasNoRole : Obligations.R7HasNoRole :=
  ⟨fun _ => rfl, fun _ _ _ v hr h =>
    ⟨exec_getElem_regs_of_not_named h (by decide) hr, exec_setReg_of_not_named (r := 7) h v hr⟩⟩

end Sys2Proof.Machine
end

section
/-! PROOF. The faults of a well-formed instruction: the reasons of `Raises` in the statements' words
(60_exceptions.md rule R200). -/

namespace Sys2Proof.Machine

/-- Settles O15: a Running machine raises a fault for one of the reasons of `Raises`, and a bad register operand, the
only one outside the list, is not one of a well-formed instruction. -/
theorem onlyTheListedFaults : Obligations.OnlyTheListedFaults := by
  intro i s k hwf hraise hrun
  cases hraise.raises hrun with
  | badRegister hbad => simp [hbad] at hwf
  | modZero _ hb h => exact .inl ⟨_, _, hb, rfl, h, rfl⟩
  | pushOverflow _ h => exact .inr (.inl ⟨_, .inl rfl, h, rfl⟩)
  | callOverflow _ h => exact .inr (.inl ⟨_, .inr rfl, h, rfl⟩)
  | popUnderflow _ h => exact .inr (.inr (.inl ⟨_, .inl rfl, h, rfl⟩))
  | retUnderflow h => exact .inr (.inr (.inl ⟨0, .inr rfl, h, rfl⟩))
  | returnAddress _ h0 h => exact .inr (.inr (.inr (.inl ⟨_, rfl, h0, h, rfl⟩)))
  | ldAddress _ hb h => exact .inr (.inr (.inr (.inr (.inl ⟨_, _, hb, rfl, h, rfl⟩))))
  | stAddress ha _ h => exact .inr (.inr (.inr (.inr (.inr (.inl ⟨_, _, ha, rfl, h, rfl⟩)))))
  | pushAddress _ _ h => exact .inr (.inr (.inr (.inr (.inr (.inr (.inl ⟨_, .inl rfl, h, rfl⟩))))))
  | callAddress _ _ h => exact .inr (.inr (.inr (.inr (.inr (.inr (.inl ⟨_, .inr rfl, h, rfl⟩))))))
  | popAddress _ _ h => exact .inr (.inr (.inr (.inr (.inr (.inr (.inr ⟨_, .inl rfl, h, rfl⟩))))))
  | retAddress _ h => exact .inr (.inr (.inr (.inr (.inr (.inr (.inr ⟨0, .inr rfl, h, rfl⟩))))))

end Sys2Proof.Machine
end

section
/-! PROOF. Fetching from memory: an instruction's encoding at the PC is fetched as that instruction, an unlisted byte as
UnknownOpcode (40_cycle.md rule R100, 30_encoding.md rules R70 and R77). -/

namespace Sys2Proof

variable {m : OpcodeMap}

/-- Taking an instruction's operand bytes back rebuilds it and leaves the rest. -/
theorem takeOperands_operands (i : Instr) (opc : Byte) (rest : List Byte) :
    takeOperands i.op opc (operandCount i.op) (i.operands ++ rest) = .instr i rest := by
  cases i <;> rfl

theorem decode_encode_append (h : m.wf) (i : Instr) (rest : List Byte) :
    decode m (encode m i ++ rest) = .instr i rest := by
  rw [encode, List.cons_append, decode_of_known _ (lookupOp_byte h i.op), takeOperands_operands]

theorem opLength_le_three (o : Op) : opLength o ≤ 3 := by cases o <;> decide

end Sys2Proof

namespace Sys2Proof.Machine

variable {s : State} {i : Instr}

theorem step_of_fetch_ok (hs : s.status = .running) (hf : s.fetch = .ok i) : step s = exec i s := by
  rw [step_of_running hs, hf]

theorem step_of_fetch_error {k : FaultKind} {opc : Option Byte} (hs : s.status = .running)
    (hf : s.fetch = .error (k, opc)) : step s = .next (s.raiseFault k opc) := by
  rw [step_of_running hs, hf]

theorem State.fetch_of_decode {rest : List Byte} (h : decode s.cfg.opcodes s.fetchWindow = .instr i rest) :
    s.fetch = .ok i := by
  rw [State.fetch, h]

/-- Bytes that stand in memory from the PC on, three at most, are the first of the fetch window. -/
theorem State.prefix_fetchWindow {bs : List Byte} (hlen : bs.length ≤ 3) (hroom : s.pc + bs.length ≤ s.cfg.memSize)
    (hread : ∀ (k : Nat) (h : k < bs.length), Memory.read s.mem (s.pc + k) = bs[k]) : bs <+: s.fetchWindow := by
  rw [List.prefix_iff_getElem?]
  intro k hk
  rw [State.fetchWindow, State.getElem_bytesFrom, if_pos (by omega), hread k hk]

/-- An instruction whose encoding stands in memory at the PC is what is fetched. -/
theorem State.fetch_of_encoding (hwf : s.cfg.opcodes.wf)
    (hroom : s.pc + (encode s.cfg.opcodes i).length ≤ s.cfg.memSize)
    (hread : ∀ (k : Nat) (h : k < (encode s.cfg.opcodes i).length),
      Memory.read s.mem (s.pc + k) = (encode s.cfg.opcodes i)[k]) : s.fetch = .ok i := by
  obtain ⟨rest, hwindow⟩ := State.prefix_fetchWindow (length_encode _ i ▸ opLength_le_three i.op) hroom hread
  exact State.fetch_of_decode (hwindow ▸ decode_encode_append hwf i rest)

theorem State.fetch_of_unknown (hpc : s.pc < s.cfg.memSize)
    (hunknown : ∀ o : Op, s.cfg.opcodes.byte o ≠ Memory.read s.mem s.pc) :
    s.fetch = .error (.unknownOpcode, some (Memory.read s.mem s.pc)) := by
  rw [State.fetch, State.fetchWindow_of_lt hpc, decode_of_unknown _ (lookupOp_eq_none.mpr hunknown)]

end Sys2Proof.Machine
end

section
/-! PROOF. The byte a write leaves in memory, as an access and as a later fetch see it (20_memory.md rules R52, R53, R57
and R62). -/

namespace Sys2Proof.Machine

variable {s t : State} {a b : Byte}

/-- Reading through the bounds check depends on the byte at the address only. -/
theorem State.memRead_setMem_congr {m : Memory} {x : Nat} (h : Memory.read m x = Memory.read s.mem x) :
    (s.setMem m).memRead x = s.memRead x := by
  simp [State.memRead, h]

/-- Settles O50: inside memory the access is the write of `Memory.read_write`, outside it is OutOfBounds. -/
theorem memoryWriteIsReadBack : Obligations.MemoryWriteIsReadBack := by
  refine fun s a v => ⟨fun ha => ⟨_, State.memWrite_of_lt v ha, ?_, rfl, fun x hx => ?_⟩,
    fun ha => ⟨State.memWrite_of_ge v ha, State.memRead_of_ge ha⟩⟩
  · rw [State.memRead_of_lt (by simpa using ha)]
    simp
  · exact State.memRead_setMem_congr (Memory.read_write_of_ne _ v hx)

/-- The memory ST leaves: op_b's register at the address in op_a's register, every other byte as before. -/
theorem Effect.read_mem_st (h : Effect (.st a b) s t) (ha : a.toNat < 8) (hb : b.toNat < 8) (x : Nat) :
    Memory.read t.mem x = if x = s.regs[a.toNat].toNat then s.regs[b.toNat] else Memory.read s.mem x := by
  cases h with
  | st => exact Memory.read_write _ _ _ _

/-- Settles O52: the machine `u` reads the stored byte at its PC and the old bytes after it, so it fetches the
instruction they encode, or UnknownOpcode where the map lists no such byte. -/
theorem storesAreSeenByFetch : Obligations.StoresAreSeenByFetch := by
  intro a b s t u ha hb haddr hexec hrun hcfg hmem hpc
  have heffect : Effect (.st a b) s t := by
    have hst := Effect.st ha hb haddr
    rw [exec_of_effect hst] at hexec
    injection hexec with hexec
    exact hexec ▸ hst
  have hcfg : u.cfg = s.cfg := hcfg.trans heffect.cfg_eq
  have hread (x : Nat) : Memory.read u.mem x = if x = u.pc then s.regs[b.toNat] else Memory.read s.mem x := by
    rw [hmem, hpc, heffect.read_mem_st ha hb]
  have hopcode : Memory.read u.mem u.pc = s.regs[b.toNat] := by rw [hread, if_pos rfl]
  refine ⟨fun hwf i hfirst hroom hrest => ?_, fun hunknown => ?_⟩
  · rw [← hcfg] at hwf hfirst hroom hrest
    refine step_of_fetch_ok hrun (State.fetch_of_encoding hwf hroom fun k hk => ?_)
    rcases Nat.eq_zero_or_pos k with rfl | hpos
    · rw [Nat.add_zero, hopcode]
      exact ((List.getElem_eq_iff hk).mpr hfirst).symm
    · rw [hread, if_neg (by omega), hrest k hk hpos]
  · rw [← hcfg, ← hopcode] at hunknown
    have hfetch := State.fetch_of_unknown (by rw [hpc, hcfg]; exact haddr) hunknown
    exact ⟨_, step_of_fetch_error hrun hfetch, by rw [hopcode]; rfl⟩

end Sys2Proof.Machine
end

section
/-! PROOF. The encoding and its two round trips: an instruction's bytes decode to it, and what decodes to an instruction is
its bytes (30_encoding.md rules R70 to R75). -/

namespace Sys2Proof

variable {m : OpcodeMap}

/-- Settles O1: the opcode byte gives the operation back, and its operand bytes rebuild the instruction. -/
theorem decodeInvertsEncode : Obligations.DecodeInvertsEncode :=
  fun _ hwf i rest => decode_encode_append hwf i rest

/-- What decodes to an instruction starts with an operation's opcode byte, and its operands are taken from the bytes after it. -/
theorem exists_takeOperands_of_decode {bs rest : List Byte} {i : Instr} (h : decode m bs = .instr i rest) :
    ∃ (o : Op) (tail : List Byte), bs = m.byte o :: tail ∧
      takeOperands o (m.byte o) (operandCount o) tail = .instr i rest := by
  rcases bs with _ | ⟨opc, tail⟩
  · simp at h
  rcases hl : lookupOp m opc with _ | o
  · simp [decode_of_unknown tail hl] at h
  · obtain rfl := byte_of_lookupOp hl
    exact ⟨o, tail, rfl, (decode_of_known tail hl).symm.trans h⟩

/-- Operands taken from a byte sequence are its first bytes, and the rest is all of it after them. -/
theorem operands_append_of_takeOperands {o : Op} {opc : Byte} {tail rest : List Byte} {i : Instr}
    (h : takeOperands o opc (operandCount o) tail = .instr i rest) : i.op = o ∧ i.operands ++ rest = tail := by
  rcases takeOperands_cases o opc tail with ⟨-, hmissing⟩ | ⟨-, j, hop, hoperands, htaken⟩
  · simp [hmissing] at h
  · rw [htaken, Decoded.instr.injEq] at h
    obtain ⟨rfl, rfl⟩ := h
    exact ⟨hop, by rw [hoperands, List.take_append_drop]⟩

/-- Settles O2: the first byte is the opcode byte of the instruction's operation, and the bytes after it are the
instruction's operands followed by the rest. -/
theorem decodedBytesAreTheEncoding : Obligations.DecodedBytesAreTheEncoding := by
  intro m bs i rest h
  obtain ⟨o, tail, rfl, htake⟩ := exists_takeOperands_of_decode h
  obtain ⟨rfl, rfl⟩ := operands_append_of_takeOperands htake
  rfl

/-- Settles O3: a lookup finds only an operation with that byte, and with distinct bytes it finds that operation. -/
theorem opcodeLookupIsExact : Obligations.OpcodeLookupIsExact :=
  ⟨fun _ _ => defaultOpcodeMap_wf.byte_inj, fun _ hwf =>
    ⟨fun _ _ => hwf.byte_inj, fun _ o => ⟨byte_of_lookupOp, fun hbyte => hbyte ▸ lookupOp_byte hwf o⟩⟩⟩

/-- Settles O4: each row is the encoder's value on one instruction. -/
theorem encodingTable : Obligations.EncodingTable := by
  intro a b
  and_intros <;> rfl

end Sys2Proof
end

section
/-! PROOF. One step of the machine: what it runs from Running, that it always answers, and that none is taken from another
status (40_cycle.md rule R100, 10_state.md rule R31). -/

namespace Sys2Proof.Machine

variable {s t : State}

/-! ### From Running -/

/-- Settles O7: the decoded instruction is what is fetched. -/
theorem stepRunsTheDecodedInstruction : Obligations.StepRunsTheDecodedInstruction :=
  fun _ _ _ hrun hdecode => step_of_fetch_ok hrun (State.fetch_of_decode hdecode)

/-- Settles O8: the instruction whose encoding stands at the PC is what is fetched. -/
theorem stepRunsTheInstructionInMemory : Obligations.StepRunsTheInstructionInMemory :=
  fun _ _ hrun hwf hroom hread => step_of_fetch_ok hrun (State.fetch_of_encoding hwf hroom hread)

theorem exists_exec_eq_next (i : Instr) (s : State) : ∃ t, exec i s = .next t := by
  rcases exec_cases i s with ⟨t, _, h⟩ | ⟨k, _, h⟩
  · exact ⟨t, h⟩
  · exact ⟨_, h⟩

theorem exists_step_eq_next (hrun : s.status = .running) : ∃ t, step s = .next t := by
  rcases hf : s.fetch with ⟨k, opc⟩ | i
  · exact ⟨_, step_of_fetch_error hrun hf⟩
  · exact step_of_fetch_ok hrun hf ▸ exists_exec_eq_next i s

/-- Settles O11: an instruction ends in its effect or in fault entry, and a step in an instruction or in a fetch fault. -/
theorem nothingIsRefused : Obligations.NothingIsRefused :=
  ⟨exists_exec_eq_next, fun _ => exists_step_eq_next⟩

/-- Settles O38: HLT's effect has no condition and writes the status only. -/
theorem hltHalts : Obligations.HltHalts :=
  fun _ => ⟨rfl, exec_of_effect .hlt⟩

/-! ### Outside a run -/

theorem step_of_ready (h : s.status = .ready) : step s = .fault .runNotStarted := by simp only [step, h, beforeRun]

theorem step_of_halted (h : s.status = .halted) : step s = .fault .runHalted := by simp only [step, h]

theorem step_of_faulted (h : s.status = .faulted) : step s = .fault .runFaulted := by simp only [step, h]

theorem State.startRun_of_ready (h : s.status = .ready) : s.startRun = some (s.setStatus .running) := by
  simp only [State.startRun, h]

theorem State.startRun_of_running (h : s.status = .running) : s.startRun = none := by
  simp only [State.startRun, h]

theorem State.startRun_of_ended (h : s.status = .halted ∨ s.status = .faulted) : s.startRun = some s := by
  rcases h with h | h <;> simp only [State.startRun, h]

/-- Settles O10: each status but Running answers by its own fault, and Ready alone is started. -/
theorem stepOutsideARun : Obligations.StepOutsideARun :=
  fun _ => ⟨fun h => ⟨step_of_ready h, State.startRun_of_ready h⟩, step_of_halted, step_of_faulted,
    fun _ h => (step_cases h).1⟩

end Sys2Proof.Machine
end

section
/-! PROOF. Where the PC is after an instruction (10_state.md rule R25, 40_cycle.md rule R104). -/

namespace Sys2Proof.Machine

variable {s : State}

theorem State.fetch_of_pc_ge (h : s.cfg.memSize ≤ s.pc) : s.fetch = .error (.outOfBounds, none) := by
  rw [State.fetch, State.fetchWindow_of_ge h, decode_nil]

/-- Settles O47: the transfers and HLT land where their effects say, every other effect advances, and fault entry keeps
the PC; a PC outside memory is met by the fetch. -/
theorem pcIsWrittenOnce : Obligations.PcIsWrittenOnce := by
  refine ⟨fun i s t _ h => ?_, fun s hrun hpc => ⟨_, step_of_fetch_error hrun (State.fetch_of_pc_ge hpc), rfl, rfl⟩⟩
  rcases exec_eq_next h with he | ⟨_, _, rfl⟩
  case inr => exact .inl ⟨rfl, rfl⟩
  rw [length_encode]
  right
  cases he with
  | hlt => exact .inl ⟨rfl, rfl⟩
  | call ha | jmp ha => exact .inr (.inl ⟨_, ha, by simp, rfl⟩)
  | jeqTaken ha hE | jneTaken ha hE => exact .inr (.inl ⟨_, ha, by simp [hE], rfl⟩)
  | ret => exact .inr (.inr (.inl ⟨rfl, rfl⟩))
  | jeqNot _ hE | jneNot _ hE => exact .inr (.inr (.inr ⟨by simp, by simp, by simp [hE], rfl⟩))
  | _ => exact .inr (.inr (.inr ⟨by simp, by simp, by simp, rfl⟩))

end Sys2Proof.Machine
end

section
/-! PROOF. A run is its steps (40_cycle.md rule R105, 60_exceptions.md rule R215): the equations of `State.runSteps`, and
what a budget cuts. -/

namespace Sys2Proof.Machine

variable {s t : State}

@[simp] theorem State.runSteps_zero (s : State) : State.runSteps 0 s = s := rfl

theorem State.runSteps_succ_of_step (n : Nat) (h : step s = .next t) :
    State.runSteps (n + 1) s = State.runSteps n t := by
  rw [State.runSteps, (step_cases h).1, h]

/-- No step is taken from a status other than Running, whatever the budget. -/
theorem State.runSteps_of_ne_running (n : Nat) (h : s.status ≠ .running) : State.runSteps n s = s := by
  cases n with
  | zero => rfl
  | succ n =>
    rw [State.runSteps]
    split
    · exact absurd ‹_› h
    · rfl

theorem State.runSteps_add (m n : Nat) (s : State) :
    State.runSteps (m + n) s = State.runSteps n (State.runSteps m s) := by
  induction m generalizing s with
  | zero => rw [Nat.zero_add, State.runSteps_zero]
  | succ m ih =>
    by_cases hrun : s.status = .running
    · obtain ⟨t, hstep⟩ := exists_step_eq_next hrun
      rw [Nat.succ_add, State.runSteps_succ_of_step _ hstep, State.runSteps_succ_of_step _ hstep, ih]
    · simp only [State.runSteps_of_ne_running _ hrun]

/-- A run that has started never becomes Ready again. -/
theorem State.status_runSteps_ne_ready (n : Nat) (h : s.status ≠ .ready) : (State.runSteps n s).status ≠ .ready := by
  induction n generalizing s with
  | zero => exact h
  | succ n ih =>
    by_cases hrun : s.status = .running
    · obtain ⟨t, hstep⟩ := exists_step_eq_next hrun
      rw [State.runSteps_succ_of_step _ hstep]
      exact ih (stepKeepsTheRunInOrder.2 s t hstep).1
    · rwa [State.runSteps_of_ne_running _ hrun]

theorem State.run_of_startRun (n : Nat) (h : s.startRun = some t) :
    s.run n = some (State.runSteps n t, (State.runSteps n t).runResult) := by
  rw [State.run, h, Option.map_some]

/-- `run()` of a machine whose run has ended leaves it as it is. -/
theorem State.run_of_ended (n : Nat) (h : s.status = .halted ∨ s.status = .faulted) :
    s.run n = some (s, s.runResult) := by
  have hrun : s.status ≠ .running := by rcases h with h | h <;> simp [h]
  rw [State.run_of_startRun n (State.startRun_of_ended h), State.runSteps_of_ne_running n hrun]

theorem State.runResult_of_halted (h : s.status = .halted) : s.runResult = some .halted := by
  simp only [State.runResult, h]

theorem State.runResult_of_faulted {r : FaultRecord} (h : s.status = .faulted) (hr : s.faultRecord = some r) :
    s.runResult = some (.faulted r.kind) := by
  simp only [State.runResult, h, hr]

/-- Settles O55: `run()` by the status it starts from, then the cut of a budget and the status it leaves. -/
theorem runIsItsSteps : Obligations.RunIsItsSteps := by
  refine ⟨fun n s => ⟨fun h => ?ready, fun h => ?halted, fun r h hr => ?faulted, fun h => ?running⟩,
    State.runSteps_add, fun n s h => ?status⟩
  case ready => exact State.run_of_startRun n (State.startRun_of_ready h)
  case halted => rw [State.run_of_ended n (.inl h), State.runResult_of_halted h]
  case faulted => rw [State.run_of_ended n (.inr h), State.runResult_of_faulted h hr]
  case running => rw [State.run, State.startRun_of_running h, Option.map_none]
  case status =>
    have hready := State.status_runSteps_ne_ready n (s := s) (by simp [h])
    cases hstatus : (State.runSteps n s).status with
    | ready => exact absurd hstatus hready
    | running => exact .inl rfl
    | halted => exact .inr (.inl rfl)
    | faulted => exact .inr (.inr rfl)

end Sys2Proof.Machine
end

section
/-! PROOF. The results of LDI, LD and ST (41_data.md): each instruction's effect and its fault in the statements'
words. -/

namespace Sys2Proof.Machine

variable {i : Instr} {s : State}

theorem State.toNat_getElem_regs_setReg (s : State) (r : Fin 8) (v : Byte) {q : Nat} (hq : q < 8) :
    (s.setReg r v).regs[q].toNat = if q = r then v.toNat else s.regs[q].toNat := by
  rw [State.setReg_regs, Vector.getElem_set, apply_ite BitVec.toNat]
  simp only [eq_comm]

/-- An instruction whose effect is one register write and the move to the next instruction writes that register in
the statements' sense. -/
theorem Effect.writesRegister {r : Fin 8} {v : Byte} (h : Effect i s ((s.setReg r v).advance i.op)) :
    WritesRegister i s r v.toNat (opLength i.op) :=
  ⟨_, exec_of_effect h, rfl, fun _ hq => s.toNat_getElem_regs_setReg r v hq⟩

/-- Settles O17: LDI's effect has no condition but its register operand. -/
theorem ldiLoadsItsLiteral : Obligations.LdiLoadsItsLiteral := fun _ _ _ ha =>
  ⟨rfl, (Effect.ldi ha).writesRegister⟩

/-- Settles O18: the address in op_b's register is in memory, LD's effect, or outside it, LD's fault. -/
theorem ldLoadsTheByteAtItsAddress : Obligations.LdLoadsTheByteAtItsAddress := fun _ _ _ ha hb =>
  ⟨rfl, fun hin => (Effect.ld ha hb hin).writesRegister, fun hout => (Raises.ldAddress ha hb hout).raisesFault⟩

/-- Settles O19: the address in op_a's register is in memory, ST's effect, or outside it, ST's fault. -/
theorem stStoresTheByteAtItsAddress : Obligations.StStoresTheByteAtItsAddress := by
  refine fun a b s ha hb => ⟨rfl, fun hin => ?_, fun hout => (Raises.stAddress ha hb hout).raisesFault⟩
  have hst := Effect.st ha hb hin
  exact ⟨_, exec_of_effect hst, rfl, hst.read_mem_st ha hb⟩

end Sys2Proof.Machine
end

section
/-! PROOF. The results of PRN and PRA (42_output.md). -/

namespace Sys2Proof.Machine

/-- Settles O20: the effects of PRN and PRA have no condition but their register operand; each emits that register's value
and moves on by its length. -/
theorem printAppendsOneEvent : Obligations.PrintAppendsOneEvent := fun _ _ ha =>
  ⟨rfl, rfl, exec_of_effect (.prn ha), exec_of_effect (.pra ha)⟩

end Sys2Proof.Machine
end

section
/-! PROOF. What the ALU's operations compute, as numbers and bit by bit (43_alu.md rules R140 to R152), one lemma per
operation. -/

namespace Sys2Proof.Machine

/-! ### Arithmetic -/

@[simp] theorem toNat_aluAdd (x y : Byte) : (aluAdd x y).toNat = (x.toNat + y.toNat) % 256 := BitVec.toNat_add x y

@[simp] theorem toNat_aluMul (x y : Byte) : (aluMul x y).toNat = (x.toNat * y.toNat) % 256 := BitVec.toNat_mul x y

@[simp] theorem toNat_aluMod (x y : Byte) : (aluMod x y).toNat = x.toNat % y.toNat := BitVec.toNat_umod

@[simp] theorem toNat_aluInc (x : Byte) : (aluInc x).toNat = (x.toNat + 1) % 256 := BitVec.toNat_add x 1

/-- Subtracting one is adding 255 modulo 256, as rule R150 states it. -/
@[simp] theorem toNat_aluDec (x : Byte) : (aluDec x).toNat = (x.toNat + 255) % 256 := by
  rw [aluDec, BitVec.toNat_sub, Nat.add_comm]
  rfl

/-! ### Bits -/

@[simp] theorem toNat_aluNot (x : Byte) : (aluNot x).toNat = 255 - x.toNat := BitVec.toNat_not

@[simp] theorem getLsbD_aluAnd (x y : Byte) (n : Nat) : (aluAnd x y).getLsbD n = (x.getLsbD n && y.getLsbD n) :=
  BitVec.getLsbD_and

@[simp] theorem getLsbD_aluOr (x y : Byte) (n : Nat) : (aluOr x y).getLsbD n = (x.getLsbD n || y.getLsbD n) :=
  BitVec.getLsbD_or

@[simp] theorem getLsbD_aluXor (x y : Byte) (n : Nat) : (aluXor x y).getLsbD n = (x.getLsbD n ^^ y.getLsbD n) :=
  BitVec.getLsbD_xor

@[simp] theorem aluAnd_self (x : Byte) : aluAnd x x = x := BitVec.and_self

@[simp] theorem aluOr_self (x : Byte) : aluOr x x = x := BitVec.or_self

@[simp] theorem aluXor_self (x : Byte) : aluXor x x = 0 := BitVec.xor_self

/-! ### Shifts -/

@[simp] theorem toNat_aluShl (x y : Byte) : (aluShl x y).toNat = (x.toNat * 2 ^ y.toNat) % 256 := by
  rw [aluShl, BitVec.toNat_shiftLeft, Nat.shiftLeft_eq]

@[simp] theorem toNat_aluShr (x y : Byte) : (aluShr x y).toNat = x.toNat / 2 ^ y.toNat := by
  rw [aluShr, BitVec.toNat_ushiftRight, Nat.shiftRight_eq_div_pow]

/-! ### The comparison: its three outcomes, by the operands as numbers -/

theorem compareFlags_of_eq {x y : Byte} (h : x.toNat = y.toNat) :
    compareFlags x y = { e := true, g := false, l := false } :=
  if_pos (BitVec.eq_of_toNat_eq h)

theorem compareFlags_of_gt {x y : Byte} (h : y.toNat < x.toNat) :
    compareFlags x y = { e := false, g := true, l := false } := by
  have hne : x ≠ y := fun hxy => Nat.ne_of_gt h (congrArg BitVec.toNat hxy)
  rw [compareFlags, if_neg hne, if_pos (BitVec.lt_def.mpr h)]

theorem compareFlags_of_lt {x y : Byte} (h : x.toNat < y.toNat) :
    compareFlags x y = { e := false, g := false, l := true } := by
  have hne : x ≠ y := fun hxy => Nat.ne_of_lt h (congrArg BitVec.toNat hxy)
  have hnlt : ¬ y < x := fun hyx => Nat.lt_asymm h (BitVec.lt_def.mp hyx)
  rw [compareFlags, if_neg hne, if_neg hnlt]

end Sys2Proof.Machine
end

section
/-! PROOF. The results of the ALU's instructions (43_alu.md): each instruction's effect, with the number its operation
computes. -/

namespace Sys2Proof.Machine

variable {i : Instr} {s : State}

/-- The register write of an effect, with the number stored given by what is known of the byte. -/
theorem Effect.writesRegister_of_toNat {r : Fin 8} {v : Byte} {n : Nat}
    (h : Effect i s ((s.setReg r v).advance i.op)) (hv : v.toNat = n) : WritesRegister i s r n (opLength i.op) :=
  hv ▸ h.writesRegister

/-- CMP with the flags its comparison gives: FL and the PC change and nothing else. -/
theorem exec_cmp_of_compareFlags {a b : Byte} {f : Flags} (ha : a.toNat < 8) (hb : b.toNat < 8)
    (hf : compareFlags s.regs[a.toNat] s.regs[b.toNat] = f) :
    exec (.cmp a b) s = .next { s with fl := f, pc := s.pc + 3 } :=
  hf ▸ exec_of_effect (.cmp ha hb)

/-- Settles O21: the effects of ADD and MUL store the byte sum and the byte product, which are those modulo 256. -/
theorem addAndMulResults : Obligations.AddAndMulResults := fun _ _ _ ha hb =>
  ⟨rfl, rfl, (Effect.add ha hb).writesRegister_of_toNat (toNat_aluAdd _ _),
    (Effect.mul ha hb).writesRegister_of_toNat (toNat_aluMul _ _)⟩

/-- Settles O22: the effects of INC and DEC, whose wrapping is that of the byte. -/
theorem incAndDecResults : Obligations.IncAndDecResults := fun _ _ ha =>
  ⟨rfl, rfl, (Effect.inc ha).writesRegister_of_toNat (toNat_aluInc _),
    (Effect.dec ha).writesRegister_of_toNat (toNat_aluDec _)⟩

/-- Settles O23: the divisor is not 0, MOD's effect, or it is 0, MOD's fault. -/
theorem modResult : Obligations.ModResult := by
  refine fun a b s ha hb => ⟨rfl, fun hdiv => ?_, fun hzero => ?_⟩
  · have hne : s.reg ⟨b.toNat, hb⟩ ≠ 0 := fun h => hdiv (congrArg BitVec.toNat h)
    exact (Effect.mod ha hb hne).writesRegister_of_toNat (toNat_aluMod _ _)
  · have heq : s.reg ⟨b.toNat, hb⟩ = 0 := BitVec.eq_of_toNat_eq hzero
    exact (Raises.modZero ha hb heq).raisesFault

/-- Settles O24: the byte stored is the one whose bits the operation's lemma gives. -/
theorem logicResults : Obligations.LogicResults := fun _ _ _ ha hb =>
  ⟨rfl, rfl, rfl,
    ⟨_, (Effect.and ha hb).writesRegister, fun n _ => getLsbD_aluAnd _ _ n⟩,
    ⟨_, (Effect.or ha hb).writesRegister, fun n _ => getLsbD_aluOr _ _ n⟩,
    ⟨_, (Effect.xor ha hb).writesRegister, fun n _ => getLsbD_aluXor _ _ n⟩⟩

/-- Settles O25: NOT's effect has no condition on its second operand byte. -/
theorem notResult : Obligations.NotResult := fun _ _ _ ha =>
  ⟨rfl, (Effect.not ha).writesRegister_of_toNat (toNat_aluNot _)⟩

/-- Settles O27: CMP's effect, with the flags of each of the three outcomes of the comparison. -/
theorem cmpSetsExactlyOneFlag : Obligations.CmpSetsExactlyOneFlag := fun _ _ _ ha hb =>
  ⟨rfl, fun h => exec_cmp_of_compareFlags ha hb (compareFlags_of_eq h),
    fun h => exec_cmp_of_compareFlags ha hb (compareFlags_of_gt h),
    fun h => exec_cmp_of_compareFlags ha hb (compareFlags_of_lt h)⟩

/-- Settles O28: the general results with one register for both operands, as the spec derives it; AND, OR and XOR by
their laws on equal bytes. -/
theorem sameRegisterTwice : Obligations.SameRegisterTwice := by
  intro a s ha
  obtain ⟨-, -, hadd, hmul⟩ := addAndMulResults a a s ha ha
  obtain ⟨-, hmod, hmodZero⟩ := modResult a a s ha ha
  obtain ⟨-, hcmp, -, -⟩ := cmpSetsExactlyOneFlag a a s ha ha
  refine ⟨?add, ?mul, ?and, ?or, ?xor, ?shl, ?shr, ?mod, hmodZero, hcmp rfl⟩
  case add => rwa [Nat.two_mul]
  case mul => rwa [Nat.pow_two]
  case and => exact (Effect.and ha ha).writesRegister_of_toNat (congrArg _ (aluAnd_self _))
  case or => exact (Effect.or ha ha).writesRegister_of_toNat (congrArg _ (aluOr_self _))
  case xor => exact (Effect.xor ha ha).writesRegister_of_toNat (congrArg _ (aluXor_self _))
  case shl => exact (Effect.shl ha ha).writesRegister_of_toNat (toNat_aluShl _ _)
  case shr => exact (Effect.shr ha ha).writesRegister_of_toNat (toNat_aluShr _ _)
  case mod => exact fun hne => Nat.mod_self s.regs[a.toNat].toNat ▸ hmod hne

end Sys2Proof.Machine
end

section
/-! PROOF. The results of PUSH and POP, and their round trip (44_stack.md rules R170 to R172). -/

namespace Sys2Proof.Machine

theorem State.getElem_regs_setReg (s : State) (r : Fin 8) (v : Byte) {q : Nat} (hq : q < 8) :
    (s.setReg r v).regs[q] = if q = r then v else s.regs[q] := by
  rw [State.setReg_regs, Vector.getElem_set]
  simp only [eq_comm]

/-- Settles O29: SP is not 0 and in memory, PUSH's effect, or it is 0, PUSH's fault. -/
theorem pushResult : Obligations.PushResult := fun _ _ ha =>
  ⟨rfl, fun h0 hm => ⟨_, exec_of_effect (.push ha h0 hm), rfl, fun x => Memory.read_write _ _ x _⟩,
    fun h => (Raises.pushOverflow ha h).raisesFault⟩

/-- Settles O30: SP is not SP_INIT and the slot above it is in memory, POP's effect, or it is SP_INIT, POP's fault. -/
theorem popResult : Obligations.PopResult := fun _ s ha =>
  ⟨rfl, fun h0 hm => ⟨_, exec_of_effect (.pop ha h0 hm), rfl,
      fun _ hq => (s.setSp (s.sp + 1)).getElem_regs_setReg ⟨_, ha⟩ _ hq⟩,
    fun h => (Raises.popUnderflow ha h).raisesFault⟩

/-- Settles O31: PUSH leaves SP one below the written slot, so the slot POP reads is the one PUSH wrote. -/
theorem pushThenPopRoundTrips : Obligations.PushThenPopRoundTrips := by
  intro a b s ha hb hpos hle hwf
  obtain ⟨-, hpush, -⟩ := pushResult a s ha
  obtain ⟨t, hexec, ht, hmem⟩ := hpush (Nat.ne_of_gt hpos) (Nat.lt_of_le_of_lt hle hwf)
  have hcfg : t.cfg = s.cfg := by rw [ht]
  have hsp : t.sp + 1 = s.sp := by rw [ht]; exact Nat.sub_add_cancel hpos
  have hslot : Memory.read t.mem s.sp = s.regs[a.toNat] := by rw [hmem, if_pos rfl]
  obtain ⟨-, hpop, -⟩ := popResult b t hb
  rw [hcfg, hsp] at hpop
  obtain ⟨u, hexec', hu, hregs⟩ := hpop (by omega) (Nat.lt_of_le_of_lt hle hwf)
  refine ⟨t, u, hexec, hexec', ?_, by rw [hu], ?_⟩
  · rw [hregs _ hb, if_pos rfl, hslot]
  · rw [hu]; exact hslot

end Sys2Proof.Machine
end

section
/-! PROOF. The results of CALL, RET, JMP, JEQ and JNE, and the return from a call (45_control.md rules R180 to R185). -/

namespace Sys2Proof.Machine

/-- CALL writes its return address at SP as that very number: rule R180 has refused one that a byte cannot hold. -/
theorem Effect.toNat_read_mem_call {s t : State} {a : Byte} (h : Effect (.call a) s t) :
    (Memory.read t.mem s.sp).toNat = s.pc + 2 := by
  cases h with
  | call _ _ hret =>
    calc (Memory.read (Memory.write s.mem s.sp (BitVec.ofNat 8 (s.pc + 2))) s.sp).toNat
      _ = (BitVec.ofNat 8 (s.pc + 2)).toNat := by rw [Memory.read_write_self]
      _ = s.pc + 2 := by rw [BitVec.toNat_ofNat, Nat.mod_eq_of_lt (Nat.lt_succ_of_le hret)]

/-- Settles O32: SP is 0, then the return address is too large for a byte, each with its fault, or neither, CALL's
effect. -/
theorem callResult : Obligations.CallResult := by
  refine fun a s ha => ⟨rfl, fun h0 hm hret => ?_, fun h => (Raises.callOverflow ha h).raisesFault,
    fun h0 hret => (Raises.returnAddress ha h0 hret).raisesFault⟩
  have hcall := Effect.call ha h0 hret hm
  exact ⟨_, exec_of_effect hcall, rfl, hcall.toNat_read_mem_call,
    fun _ hx => hcall.read_mem_of_ne_sp (by simp [Instr.op]) hx⟩

/-- Settles O33: SP is not SP_INIT and the slot above it is in memory, RET's effect, or it is SP_INIT, RET's fault. -/
theorem retResult : Obligations.RetResult := fun _ =>
  ⟨rfl, fun h0 hm => exec_of_effect (.ret h0 hm), fun h => (Raises.retUnderflow h).raisesFault⟩

/-- Settles O34: CALL leaves SP one below the slot of its return address, so the slot RET reads is that one. -/
theorem callThenRetReturns : Obligations.CallThenRetReturns := by
  intro a s ha hpos hle hwf hpc
  have hin : s.sp < s.cfg.memSize := Nat.lt_of_le_of_lt hle hwf
  obtain ⟨-, hcall, -, -⟩ := callResult a s ha
  obtain ⟨t, hexec, ht, hslot, -⟩ := hcall (Nat.ne_of_gt hpos) hin (by omega)
  refine ⟨t, hexec, fun u hcfg hsp hmem => ?_⟩
  have hcfg : u.cfg = s.cfg := by rw [hcfg, ht]
  have hsp : u.sp + 1 = s.sp := by rw [hsp, ht]; exact Nat.sub_add_cancel hpos
  obtain ⟨-, hret, -⟩ := retResult u
  have hret := hret (by rw [hcfg]; omega) (by rwa [hcfg, hsp])
  rwa [hsp, hmem, hslot] at hret

/-- Settles O35: JMP's effect has no condition but its register operand. -/
theorem jmpResult : Obligations.JmpResult := fun _ _ ha => ⟨rfl, exec_of_effect (.jmp ha)⟩

/-- Settles O36: JEQ has two effects, told apart by E; not taken, it moves on by its length. -/
theorem jeqResult : Obligations.JeqResult := fun _ _ ha =>
  ⟨rfl, fun he => exec_of_effect (.jeqTaken ha he), fun he => exec_of_effect (.jeqNot ha he)⟩

/-- Settles O37: JNE has two effects, told apart by E alone, so a clear E need not come from a CMP. -/
theorem jneResult : Obligations.JneResult := fun _ _ ha =>
  ⟨rfl, fun he => exec_of_effect (.jneTaken ha he), fun he => exec_of_effect (.jneNot ha he)⟩

end Sys2Proof.Machine
end

section
/-! PROOF. Fault entry of a step (60_exceptions.md rules R201, R203): the faults a fetch raises, and that no effect ends
Faulted. -/

namespace Sys2Proof.Machine

variable {i : Instr} {s t : State}

/-- An effect ends Halted, for HLT, or leaves the run going. -/
theorem Effect.status_cases (h : Effect i s t) (hrun : s.status = .running) :
    t.status = .halted ∨ t.status = .running := by
  by_cases hi : i = .hlt
  · subst hi; exact .inl h.status_of_hlt
  · exact .inr ((h.status_eq hi).trans hrun)

/-- A fault of the fetch is a run-time one, and has its opcode on record exactly if the PC is in memory. -/
theorem State.fault_of_fetch_error {k : FaultKind} {opc : Option Byte} (h : s.fetch = .error (k, opc)) :
    k ≠ .programTooLarge ∧
    ((k = .outOfBounds ∧ opc = none ∧ s.cfg.memSize ≤ s.pc) ∨ (opc.isSome = true ∧ s.pc < s.cfg.memSize)) := by
  rcases s.fetch_cases with ⟨hpc, hf⟩ | ⟨hpc, _, hf⟩ | ⟨_, hpc, _, _, hf⟩ | ⟨_, _, _, hf⟩ <;> rw [hf] at h <;> cases h
  · exact ⟨by simp, .inl ⟨rfl, rfl, hpc⟩⟩
  · exact ⟨by simp, .inr ⟨rfl, hpc⟩⟩
  · exact ⟨by simp, .inr ⟨rfl, hpc⟩⟩

/-- Settles O13: the step is fault entry of the fetch or of the instruction, for an effect never ends Faulted. -/
theorem faultEntryIsPrecise : Obligations.FaultEntryIsPrecise := by
  intro s t hstep hfaulted
  obtain ⟨hrun, ⟨k, opc, hfetch, rfl⟩ | ⟨i, -, hexec⟩⟩ := step_cases hstep
  · exact ⟨hrun, k, opc, (State.fault_of_fetch_error hfetch).1, rfl⟩
  · rcases exec_eq_next hexec with he | ⟨k, hk, rfl⟩
    · rcases he.status_cases hrun with ht | ht <;> simp [ht] at hfaulted
    · exact ⟨hrun, k, _, hk.ne_programTooLarge, rfl⟩

end Sys2Proof.Machine
end

section
/-! PROOF. What an effect can leave in the PC, SP, memory and FL: the bounds the invariant needs. -/

namespace Sys2Proof.Machine

variable {i : Instr} {s t : State}

/-- Everything an effect can do to the PC: HLT keeps it, a transfer sets it to a byte's value, and every other effect moves
it on by the instruction's length (40_cycle.md rule R104). -/
theorem Effect.pc_cases (h : Effect i s t) : t.pc = s.pc ∨ t.pc ≤ 255 ∨ t.pc = s.pc + opLength i.op := by
  cases h with
  | hlt => exact .inl rfl
  | call | ret | jmp | jeqTaken | jneTaken => exact .inr (.inl (Nat.le_of_lt_succ (BitVec.isLt _)))
  | _ => exact .inr (.inr rfl)

/-- SP stays in [0, SP_INIT] (10_state.md rule R26). -/
theorem Effect.sp_le (h : Effect i s t) (hle : s.sp ≤ s.cfg.spInit) : t.sp ≤ s.cfg.spInit := by
  cases h with
  | push | call => exact Nat.le_trans (Nat.sub_le _ _) hle
  | pop _ h0 | ret h0 => exact Nat.lt_of_le_of_ne hle h0
  | _ => exact hle

/-- Everything an effect can do to memory: one write inside it, or nothing. -/
theorem Effect.mem_cases (h : Effect i s t) :
    t.mem = s.mem ∨ ∃ (a : Nat) (v : Byte), a < s.cfg.memSize ∧ t.mem = Memory.write s.mem a v := by
  cases h with
  | push _ _ hm | call _ _ _ hm | st _ _ hm => exact .inr ⟨_, _, hm, rfl⟩
  | _ => exact .inl rfl

/-- Everything an effect can do to FL: a comparison's flags, or nothing. -/
theorem Effect.fl_cases (h : Effect i s t) : t.fl = s.fl ∨ ∃ x y : Byte, t.fl = compareFlags x y := by
  cases h with
  | cmp => exact .inr ⟨_, _, rfl⟩
  | _ => exact .inl rfl

end Sys2Proof.Machine
end

section
/-! PROOF. The invariant is kept by every step and by the host's moves, so it holds of every reachable state. -/

namespace Sys2Proof.Machine

variable {i : Instr} {s t : State}

theorem State.Inv.faultRecord_eq_none (h : s.Inv) (hs : s.status ≠ .faulted) : s.faultRecord = none :=
  Option.not_isSome_iff_eq_none.mp fun hsome => hs (h.record_iff.mp hsome)

/-! ### Steps -/

/-- The effect of an instruction fetched from inside memory keeps the invariant. -/
theorem Effect.inv (he : Effect i s t) (h : s.Inv) (hrun : s.status = .running)
    (hroom : s.pc + opLength i.op ≤ s.cfg.memSize) : t.Inv := by
  have hrecord : t.faultRecord = none := he.faultRecord_eq.trans (h.faultRecord_eq_none (by simp [hrun]))
  have hstatus := he.status_cases hrun
  constructor
  case cfg_wf => exact he.cfg_eq ▸ h.cfg_wf
  case pc_le =>
    have hpc := h.pc_le
    rw [he.cfg_eq]
    rcases he.pc_cases with h' | h' | h' <;> omega
  case sp_le => exact he.cfg_eq ▸ he.sp_le h.sp_le
  case mem_wf =>
    rcases he.mem_cases with hmem | ⟨a, v, -, hmem⟩ <;> rw [hmem]
    · exact h.mem_wf
    · exact Memory.wf_write a v h.mem_wf
  case mem_lt =>
    rw [he.cfg_eq]
    rcases he.mem_cases with hmem | ⟨a, v, ha, hmem⟩ <;> rw [hmem]
    · exact h.mem_lt
    · exact Memory.lt_write v ha h.mem_lt
  case fl_exclusive =>
    rcases he.fl_cases with hfl | ⟨x, y, hfl⟩ <;> rw [hfl]
    · exact h.fl_exclusive
    · exact (compareFlags_exactly_one x y).le
  case record_iff => rcases hstatus with ht | ht <;> simp [hrecord, ht]
  case record_shape => simp [hrecord]
  case ready_output => rcases hstatus with ht | ht <;> simp [ht]

/-- Fault entry with a record of rule R201's shape keeps the invariant. -/
theorem State.Inv.raiseFault {k : FaultKind} {opc : Option Byte} (h : s.Inv) (hk : k ≠ .programTooLarge)
    (hshape : (k = .outOfBounds ∧ opc = none ∧ s.cfg.memSize ≤ s.pc) ∨ (opc.isSome = true ∧ s.pc < s.cfg.memSize)) :
    (s.raiseFault k opc).Inv where
  cfg_wf := h.cfg_wf
  pc_le := h.pc_le
  sp_le := h.sp_le
  mem_wf := h.mem_wf
  mem_lt := h.mem_lt
  fl_exclusive := h.fl_exclusive
  record_iff := by simp
  record_shape := by
    rintro _ ⟨⟩
    exact .inr (hshape.imp (fun ⟨hoob, hopc, hpc⟩ => ⟨hoob, rfl, hopc, hpc⟩) fun ⟨hopc, hpc⟩ => ⟨hk, rfl, hopc, hpc⟩)
  ready_output := by simp

theorem State.room_of_fetch_ok (h : s.fetch = .ok i) : s.pc + opLength i.op ≤ s.cfg.memSize := by
  rcases s.fetch_cases with ⟨_, hf⟩ | ⟨_, _, hf⟩ | ⟨_, _, _, _, hf⟩ | ⟨j, hroom, _, hf⟩ <;> rw [hf] at h <;> cases h
  exact hroom

/-- A fetch fault and an instruction's fault have rule R201's record, and an effect's instruction lay inside memory. -/
theorem State.Inv.of_step (h : s.Inv) (hstep : step s = .next t) : t.Inv := by
  obtain ⟨hrun, ⟨k, opc, hfetch, rfl⟩ | ⟨i, hfetch, hexec⟩⟩ := step_cases hstep
  · obtain ⟨hk, hshape⟩ := State.fault_of_fetch_error hfetch
    exact h.raiseFault hk hshape
  · have hroom := State.room_of_fetch_ok hfetch
    rcases exec_eq_next hexec with he | ⟨k, hk, rfl⟩
    · exact he.inv h hrun hroom
    · exact h.raiseFault hk.ne_programTooLarge (.inr ⟨rfl, by rw [opLength] at hroom; omega⟩)

/-! ### The host's moves -/

/-- Everything `load` can do (70_reset_and_hazards.md rule R232): end the run before it starts, or place the image. -/
theorem State.load_cases {bytes : List Byte} (h : s.load bytes = some t) :
    s.status = .ready ∧ s.loaded = false ∧
    ((s.cfg.memSize < bytes.length ∧ t = { s with
        status := .faulted, faultRecord := some { kind := .programTooLarge, pc := none, opcode := none } }) ∨
      (bytes.length ≤ s.cfg.memSize ∧ t = { s with mem := Memory.writeBytes s.mem 0 bytes, loaded := true })) := by
  unfold State.load at h
  split at h
  case isFalse => cases h
  case isTrue hguard =>
    obtain ⟨hready, hloaded⟩ := hguard
    refine ⟨hready, hloaded, ?_⟩
    split at h <;> cases h
    · exact .inl ⟨‹_›, rfl⟩
    · exact .inr ⟨Nat.not_lt.mp ‹_›, rfl⟩

theorem State.Inv.of_load {bytes : List Byte} (h : s.Inv) (hload : s.load bytes = some t) : t.Inv := by
  obtain ⟨-, -, ⟨-, rfl⟩ | ⟨hfits, rfl⟩⟩ := State.load_cases hload
  · exact { h with
      record_iff := by simp
      record_shape := by simp
      ready_output := by simp }
  · exact { h with
      mem_wf := Memory.wf_writeBytes bytes _ 0 h.mem_wf
      mem_lt := Memory.lt_writeBytes bytes _ 0 (by simpa using hfits) h.mem_lt }

/-- Everything the start of a run can do: set a Ready machine Running, or leave one whose run has ended. -/
theorem State.startRun_cases (h : s.startRun = some t) :
    (s.status = .ready ∧ t = s.setStatus .running) ∨ ((s.status = .halted ∨ s.status = .faulted) ∧ t = s) := by
  by_cases hended : s.status = .halted ∨ s.status = .faulted
  · rw [State.startRun_of_ended hended] at h
    exact .inr ⟨hended, (Option.some.inj h).symm⟩
  · cases hs : s.status with
    | ready =>
      rw [State.startRun_of_ready hs] at h
      exact .inl ⟨rfl, (Option.some.inj h).symm⟩
    | running => simp [State.startRun_of_running hs] at h
    | halted | faulted => simp [hs] at hended

theorem State.Inv.of_startRun (h : s.Inv) (hstart : s.startRun = some t) : t.Inv := by
  rcases State.startRun_cases hstart with ⟨hready, rfl⟩ | ⟨-, rfl⟩
  · have hrecord := h.faultRecord_eq_none (by simp [hready])
    exact { h with
      record_iff := by simp [hrecord]
      ready_output := by simp }
  · exact h

/-! ### Reachable states -/

theorem Reachable.inv (h : Reachable s) : s.Inv := by
  induction h with
  | construct c hc => exact State.construct_inv hc
  | load bytes _ hload ih => exact ih.of_load hload
  | start _ hstart ih => exact ih.of_startRun hstart
  | step _ hstep ih => exact ih.of_step hstep

/-- In a memory of at least 253 slots the invariant's bound on the PC is within rule R24's range [0, MEM_SIZE + 2]. -/
theorem State.Inv.pc_le_memSize_add_two (h : s.Inv) (hmem : 253 ≤ s.cfg.memSize) : s.pc ≤ s.cfg.memSize + 2 := by
  have := h.pc_le
  omega

/-- Settles O58: the invariant of every reachable state, and the bound it gives the PC. -/
theorem reachableStatesMeetTheInvariant : Obligations.ReachableStatesMeetTheInvariant :=
  fun _ hs => ⟨hs.inv, hs.inv.pc_le_memSize_add_two⟩

end Sys2Proof.Machine
end

section
/-! PROOF. The invariant's steps, as the statements name them (10_state.md sections 3 to 6, 70_reset_and_hazards.md
rule R232, 40_cycle.md rule R105). -/

namespace Sys2Proof.Machine

/-- Settles O57: the step is an effect, an instruction's fault or a fetch fault, and each keeps the invariant. -/
theorem stepKeepsTheInvariant : Obligations.StepKeepsTheInvariant :=
  fun _ _ hinv hstep => hinv.of_step hstep

/-- Settles O59: the two outcomes of `load`, and the start of a run. -/
theorem hostMovesKeepTheInvariant : Obligations.HostMovesKeepTheInvariant :=
  fun _ _ hinv => ⟨fun _ hload => hinv.of_load hload, fun hstart => hinv.of_startRun hstart⟩

end Sys2Proof.Machine
end

section
/-! PROOF. What reset and `load` leave (70_reset_and_hazards.md rules R230 and R232). -/

namespace Sys2Proof.Machine

variable {s : State} {bytes : List Byte}

/-- Settles O53: `State.construct` field by field, and an empty memory reads 0 everywhere. -/
theorem resetLeaves : Obligations.ResetLeaves := by
  refine fun c => ⟨fun q hq => ?_, rfl, rfl, rfl, rfl, Memory.read_nil, rfl, rfl, rfl⟩
  interval_cases q <;> rfl

/-- An image that fits is written from address 0. -/
theorem State.load_of_fits (hready : s.status = .ready) (hloaded : s.loaded = false)
    (hfits : bytes.length ≤ s.cfg.memSize) :
    s.load bytes = some { s with mem := Memory.writeBytes s.mem 0 bytes, loaded := true } := by
  rw [State.load, if_pos ⟨hready, hloaded⟩, if_neg (Nat.not_lt.mpr hfits)]

/-- A larger image ends the run before it starts (decision D32). -/
theorem State.load_of_too_large (hready : s.status = .ready) (hloaded : s.loaded = false)
    (hlarge : s.cfg.memSize < bytes.length) : s.load bytes = some { s with
      status := .faulted, faultRecord := some { kind := .programTooLarge, pc := none, opcode := none } } := by
  rw [State.load, if_pos ⟨hready, hloaded⟩, if_pos hlarge]

/-- `load` is possible once, while Ready (60_exceptions.md rule R214). -/
theorem State.load_eq_none (h : s.status ≠ .ready ∨ s.loaded = true) : s.load bytes = none := by
  rw [State.load, if_neg]
  rintro ⟨hready, hloaded⟩
  rcases h with h | h
  · exact h hready
  · simp [hloaded] at h

/-- Settles O54: the three outcomes of `load`, and what the image written from address 0 reads as. -/
theorem loadPlacesTheImage : Obligations.LoadPlacesTheImage := by
  refine fun s bytes => ⟨fun hready hloaded hfits => ?_, State.load_of_too_large, State.load_eq_none⟩
  refine ⟨_, State.load_of_fits hready hloaded hfits, rfl, fun k hk => ?_, fun a ha => ?_⟩ <;>
    rw [Memory.read_writeBytes]
  · rw [dif_pos ⟨Nat.zero_le k, hk⟩]
    rfl
  · rw [dif_neg fun hin => Nat.not_lt.mpr ha hin.2]

end Sys2Proof.Machine
end

section
/-! PROOF. The rejected opcode bytes and the example words (30_encoding.md rules R71, R77). -/

namespace Sys2Proof

variable {m : OpcodeMap}

/-- A first byte is rejected as unknown exactly if it is no operation's, whatever follows it. -/
theorem decode_eq_unknownOpcode_iff {opc : Byte} {rest : List Byte} :
    decode m (opc :: rest) = .rejected (.unknownOpcode opc) ↔ ∀ o : Op, m.byte o ≠ opc := by
  rw [← lookupOp_eq_none]
  refine ⟨fun h => ?_, decode_of_unknown rest⟩
  rcases hl : lookupOp m opc with _ | o
  · rfl
  · rw [decode_of_known rest hl] at h
    rcases takeOperands_cases o opc rest with ⟨-, ht⟩ | ⟨-, i, -, -, ht⟩ <;> simp [ht] at h

theorem OpcodeMap.mem_bytes_iff {b : Byte} : b ∈ m.bytes ↔ ∃ o : Op, m.byte o = b := by
  rw [← m.map_byte_allOps, List.mem_map]
  exact exists_congr fun o => and_iff_right (mem_allOps o)

/-- Settles O6: a byte is rejected if it is no operation's, and the listed values are those of the default map. -/
theorem unlistedOpcodesAreRejected : Obligations.UnlistedOpcodesAreRejected := by
  intro opc rest
  have hlist : opc.toNat ∈ defaultOpcodeMap.bytes.map BitVec.toNat ↔ opc ∈ defaultOpcodeMap.bytes :=
    List.mem_map_of_injective fun _ _ => BitVec.eq_of_toNat_eq
  rw [decode_eq_unknownOpcode_iff, ← not_exists, ← OpcodeMap.mem_bytes_iff, ← hlist]
  rfl

/-- Settles O5: each word is the encoding of its instruction under the default map. -/
theorem exampleWordsDecode : Obligations.ExampleWordsDecode := by
  have hword (i : Instr) := decode_encode_append defaultOpcodeMap_wf i []
  exact ⟨hword .hlt, hword (.ldi 0 5), hword (.st 3 2), hword (.prn 0), hword (.add 0 1), hword (.not 0 0xC8),
    hword (.inc 2), hword (.push 0), hword (.call 1), hword .ret⟩

end Sys2Proof
end

section
/-! PROOF. The faults of a fetch, in their order (40_cycle.md rules R101 and R102, 30_encoding.md rule R77), and the
instruction that `withFetchWord` places. -/

namespace Sys2Proof.Machine

variable {s : State}

/-- A listed opcode whose operands reach past the end of memory. -/
theorem State.fetch_of_missing_operand {o : Op} (hwf : s.cfg.opcodes.wf) (hpc : s.pc < s.cfg.memSize)
    (ho : s.cfg.opcodes.byte o = Memory.read s.mem s.pc) (hend : s.cfg.memSize ≤ s.pc + operandCount o) :
    s.fetch = .error (.outOfBounds, some (s.cfg.opcodes.byte o)) := by
  rw [State.fetch, State.fetchWindow_of_lt hpc, ← ho, decode_of_known _ (lookupOp_byte hwf o)]
  rcases takeOperands_cases o (s.cfg.opcodes.byte o) (s.bytesFrom 2 (s.pc + 1)) with ⟨-, ht⟩ | ⟨hlen, -⟩
  · rw [ht]
  · rw [State.length_bytesFrom] at hlen
    omega

/-- Settles O9: each clause is the fetch's fault of its case, raised by the step. -/
theorem fetchFaultsInOrder : Obligations.FetchFaultsInOrder := fun _ hrun =>
  ⟨fun hpc => step_of_fetch_error hrun (State.fetch_of_pc_ge hpc),
    fun hpc hunknown => step_of_fetch_error hrun (State.fetch_of_unknown hpc hunknown),
    fun hwf hpc _ ho hend => step_of_fetch_error hrun (State.fetch_of_missing_operand hwf hpc ho hend)⟩

@[simp] theorem State.withFetchWord_pc (nbits w : Nat) : (s.withFetchWord nbits w).pc = s.pc := rfl

theorem State.withFetchWord_mem {nbits w : Nat} (hroom : s.pc + 3 ≤ s.cfg.memSize) :
    (s.withFetchWord nbits w).mem = Memory.writeBytes s.mem s.pc (tableBytes nbits w) := by
  have hlen : (tableBytes nbits w).length ≤ s.cfg.memSize - s.pc := Nat.le_sub_of_add_le' hroom
  exact congrArg (Memory.writeBytes s.mem s.pc) (List.take_of_length_le hlen)

/-- With room for three bytes, what is fetched after `withFetchWord` are the bytes it placed. -/
theorem State.fetchWindow_withFetchWord {nbits w : Nat} (hroom : s.pc + 3 ≤ s.cfg.memSize) :
    (s.withFetchWord nbits w).fetchWindow = tableBytes nbits w := by
  have hprefix : tableBytes nbits w <+: (s.withFetchWord nbits w).fetchWindow := by
    refine State.prefix_fetchWindow (Nat.le_refl 3) hroom fun k hk => ?_
    rw [State.withFetchWord_mem hroom, Memory.read_writeBytes]
    simp [hk]
  refine (hprefix.eq_of_length_le ?_).symm
  rw [State.fetchWindow, State.length_bytesFrom]
  exact Nat.min_le_left _ _

theorem exists_decode_of_decodeWord {m : OpcodeMap} {nbits w : Nat} {i : Instr} (h : decodeWord m nbits w = some i) :
    ∃ rest, decode m (tableBytes nbits w) = .instr i rest := by
  unfold decodeWord at h
  split at h <;> cases h
  exact ⟨_, ‹_›⟩

/-- Settles O12: the word placed is what the step fetches, and its three bytes are all that is written. -/
theorem fetchWordRunsNext : Obligations.FetchWordRunsNext := by
  intro s nbits w i hroom hword
  obtain ⟨rest, hdecode⟩ := exists_decode_of_decodeWord hword
  refine ⟨step_of_fetch_ok rfl (State.fetch_of_decode (rest := rest) ?_), rfl, fun a ha => ?_⟩
  · rw [State.fetchWindow_withFetchWord hroom]
    exact hdecode
  · have hout : ¬ (s.pc ≤ a ∧ a - s.pc < (tableBytes nbits w).length) := by
      simp only [tableBytes, List.length_cons, List.length_nil]
      omega
    rw [State.withFetchWord_mem hroom, Memory.read_writeBytes, dif_neg hout]

end Sys2Proof.Machine
end

section
/-! PROOF. The results of the shifts (43_alu.md rules R147 and R148; SHIFT_POLICY full, decision D9). -/

namespace Sys2Proof.Machine

variable {x y : Byte}

theorem toNat_aluShl_of_ge (h : 8 ≤ y.toNat) : (aluShl x y).toNat = 0 := by
  have hdvd : 2 ^ 8 ∣ x.toNat * 2 ^ y.toNat := Dvd.dvd.mul_left (Nat.pow_dvd_pow 2 h) _
  rw [toNat_aluShl]
  exact Nat.mod_eq_zero_of_dvd hdvd

theorem toNat_aluShr_of_ge (h : 8 ≤ y.toNat) : (aluShr x y).toNat = 0 := by
  have hlt : x.toNat < 2 ^ y.toNat := Nat.lt_of_lt_of_le x.isLt (Nat.pow_le_pow_right (by decide) h)
  rw [toNat_aluShr, Nat.div_eq_of_lt hlt]

/-- Settles O26: the effects of SHL and SHR, with the number stored in general and for an amount of 8 or more. -/
theorem shiftResults : Obligations.ShiftResults := by
  intro a b s ha hb
  have hshl := Effect.shl (s := s) ha hb
  have hshr := Effect.shr (s := s) ha hb
  exact ⟨rfl, rfl, hshl.writesRegister_of_toNat (toNat_aluShl _ _), hshr.writesRegister_of_toNat (toNat_aluShr _ _),
    fun h => ⟨hshl.writesRegister_of_toNat (toNat_aluShl_of_ge h),
      hshr.writesRegister_of_toNat (toNat_aluShr_of_ge h)⟩⟩

end Sys2Proof.Machine
end

section
/-! PROOF. SP is neither read nor written but by PUSH, POP, CALL and RET (10_state.md rule R26). -/

namespace Sys2Proof.Machine

variable {i : Instr} {s t : State}

theorem exec_sp_eq (h : exec i s = .next t) (hop : i.op ∉ stackOps) : t.sp = s.sp := by
  rcases exec_eq_next h with he | ⟨_, _, rfl⟩
  · exact he.sp_eq hop
  · rfl

/-- Every effect but those of the stack's operations is the same with another SP. -/
theorem Effect.setSp (h : Effect i s t) (v : Nat) (hop : i.op ∉ stackOps) : Effect i (s.setSp v) (t.setSp v) := by
  cases h with
  | push | pop | call | ret => simp [Instr.op, stackOps] at hop
  | _ => constructor <;> assumption

/-- Every fault but those of the stack's operations is raised with another SP too. -/
theorem Raises.setSp {k : FaultKind} (h : Raises i s k) (v : Nat) (hop : i.op ∉ stackOps) :
    Raises i (s.setSp v) k := by
  cases h with
  | badRegister h => exact .badRegister h
  | modZero ha hb h => exact .modZero ha hb h
  | ldAddress ha hb h => exact .ldAddress ha hb h
  | stAddress ha hb h => exact .stAddress ha hb h
  | _ => simp [Instr.op, stackOps] at hop

theorem exec_setSp (h : exec i s = .next t) (v : Nat) (hop : i.op ∉ stackOps) :
    exec i (s.setSp v) = .next (t.setSp v) :=
  exec_map (F := (·.setSp v)) h (·.setSp v hop) (fun _ hk => hk.setSp v hop) rfl fun _ _ => rfl

theorem Instr.op_notMem_stackOps (h : ∀ a : Byte, i ≠ .push a ∧ i ≠ .pop a ∧ i ≠ .call a) (hret : i ≠ .ret) :
    i.op ∉ stackOps := by
  cases i with
  | push a => exact absurd rfl (h a).1
  | pop a => exact absurd rfl (h a).2.1
  | call a => exact absurd rfl (h a).2.2
  | ret => exact absurd rfl hret
  | _ => simp [Instr.op, stackOps]

/-- Settles O44: outside the stack's operations an instruction keeps SP and commutes with a write of it. -/
theorem stackPointerIsTheStackInstructions : Obligations.StackPointerIsTheStackInstructions := by
  intro i s t v hi hret h
  have hop := Instr.op_notMem_stackOps hi hret
  exact ⟨exec_sp_eq h hop, exec_setSp h v hop⟩

end Sys2Proof.Machine
end
